-- ==== Sys2Proof/Word.lean ====
section
/-! DEFINITION. The machine's word types (spec/00_scope.md rules R6, R7). -/

namespace Sys2Proof

/-- One byte of the instruction buffer, bits 7 to 0 (R7). -/
abbrev Byte := BitVec 8

/-- The 16-bit immediate of Load (IMMW of R6). -/
abbrev Half := BitVec 16

/-- A 32-bit vector: a general register, the remainder register, the program counter (XLEN, REMW, PCW of R6). -/
abbrev Word := BitVec 32

end Sys2Proof
end

