-- ==== Sys2Proof/Syntax.lean ====
section
/-! DEFINITION. The closed set of operations and the instructions with their operand bytes
(spec/30_encoding.md rules R36 to R56). -/

namespace Sys2Proof

/-- The 17 symbolic operations, the sentinel Illegal among them (R48, R49, R56). -/
inductive Opcode where
  | load | add | sub | mul | div
  | jmp | jmpf | jmpb
  | eq | neq | gte | lte | lt | gt
  | jmpe | halt | illegal
deriving DecidableEq, Repr

/-- The five formats (R38 to R42). -/
inductive Format where
  | Z | J | L | R | C
deriving DecidableEq, Repr

/-- The format of each operation (R38 to R42). -/
def Opcode.format : Opcode → Format
  | .load => .L
  | .add | .sub | .mul | .div => .R
  | .jmp | .jmpf | .jmpb | .jmpe => .J
  | .eq | .neq | .gte | .lte | .lt | .gt => .C
  | .halt | .illegal => .Z

/-- An instruction: its operation and its operand bytes as they stand in the buffer. A register operand is the raw
index byte, 0 to 255 (R46), since an index above 31 decodes and faults only when executed; `pad` is the ignored third
byte of a comparison (R47); `code` is the unmapped opcode byte of an Illegal (R51), kept so that no bit of an
encoding is dropped. Notes: assumption log 14. -/
inductive Instr where
  | load (rd : Byte) (imm : Half)
  | add (rs1 rs2 rd : Byte)
  | sub (rs1 rs2 rd : Byte)
  | mul (rs1 rs2 rd : Byte)
  | div (rs1 rs2 rd : Byte)
  | jmp (rt : Byte)
  | jmpf (rt : Byte)
  | jmpb (rt : Byte)
  | eq (r1 r2 pad : Byte)
  | neq (r1 r2 pad : Byte)
  | gte (r1 r2 pad : Byte)
  | lte (r1 r2 pad : Byte)
  | lt (r1 r2 pad : Byte)
  | gt (r1 r2 pad : Byte)
  | jmpe (rt : Byte)
  | halt
  | illegal (code : Byte)
deriving DecidableEq, Repr

/-- The operation of an instruction. -/
def Instr.op : Instr → Opcode
  | .load .. => .load
  | .add .. => .add
  | .sub .. => .sub
  | .mul .. => .mul
  | .div .. => .div
  | .jmp .. => .jmp
  | .jmpf .. => .jmpf
  | .jmpb .. => .jmpb
  | .eq .. => .eq
  | .neq .. => .neq
  | .gte .. => .gte
  | .lte .. => .lte
  | .lt .. => .lt
  | .gt .. => .gt
  | .jmpe .. => .jmpe
  | .halt => .halt
  | .illegal .. => .illegal

/-- The register-index operand bytes of an instruction, in encoding order (R94). -/
def Instr.regBytes : Instr → List Byte
  | .load rd _ => [rd]
  | .add rs1 rs2 rd | .sub rs1 rs2 rd | .mul rs1 rs2 rd | .div rs1 rs2 rd => [rs1, rs2, rd]
  | .jmp rt | .jmpf rt | .jmpb rt | .jmpe rt => [rt]
  | .eq r1 r2 _ | .neq r1 r2 _ | .gte r1 r2 _ | .lte r1 r2 _ | .lt r1 r2 _ | .gt r1 r2 _ => [r1, r2]
  | .halt | .illegal _ => []

end Sys2Proof
end

