-- ==== Sys2Proof/Config.lean ====
section
/-! DEFINITION. The parameters of the machine (spec/00_scope.md R6): what is fixed for a machine and is no state. -/

namespace Sys2Proof

/-- ARITH_OVERFLOW of R6: what Add, Sub, Mul and Div do when the exact result does not fit 32 signed bits
(spec/41_arithmetic.md R68). -/
inductive ArithOverflow where
  /-- the result is the low 32 bits of the exact result -/
  | wrap
  /-- the instruction raises ArithmeticOverflow -/
  | fault
deriving DecidableEq, Repr

/-- OPMAP of R6 on the bytes 0 to 15: the operation of byte `b` is the entry number `b`. -/
abbrev OpTable := List Opcode

/-- The sixteen defined operations in the order of the source's table (spec/30_encoding.md R49). -/
def definedOps : List Opcode :=
  [.load, .add, .sub, .mul, .div, .jmp, .jmpf, .jmpb, .eq, .neq, .gte, .lte, .lt, .gt, .jmpe, .halt]

/-- A table is a bijection from the bytes 0 to 15 onto the sixteen defined operations (R49; decision D1): the table
is a rearrangement of them. -/
abbrev OpTable.valid (t : OpTable) : Prop := t.Perm definedOps

/-- The parameters a model takes as arguments (R6). -/
structure Params where
  /-- ARITH_OVERFLOW -/
  overflow : ArithOverflow
  /-- OPMAP -/
  opTable : OpTable
  /-- REM_RESET -/
  remReset : Word
  /-- EQ_RESET -/
  eqReset : Bool
deriving DecidableEq, Repr

end Sys2Proof
end

