-- ==== Sys2Proof/WellFormed.lean ====
section
/-! DEFINITION. Which terms of `Instr` some bytes spell, and which of those name only registers that exist. -/

namespace Sys2Proof

/-- A term is well formed when some bytes decode to it. Every operand byte may hold any value (spec/30_encoding.md R46,
R47, R52); only an Illegal is constrained: its opcode byte is one that OPMAP does not assign, 16 to 255 (R51). -/
def Instr.wellFormed : Instr → Bool
  | .illegal code => decide (16 ≤ code.toNat)
  | .load .. | .add .. | .sub .. | .mul .. | .div .. | .jmp .. | .jmpf .. | .jmpb .. | .eq .. | .neq ..
  | .gte .. | .lte .. | .lt .. | .gt .. | .jmpe .. | .halt => true

/-- Every register-index operand byte names a register, 0 to 31 (R46, R94). An instruction that fails this check
still decodes; executing it raises RegisterIndexOutOfRange (spec/60_exceptions.md R110). -/
def Instr.regsValid (i : Instr) : Bool :=
  i.regBytes.all fun v => decide (v.toNat < 32)

end Sys2Proof
end

