-- ==== Sys2Proof/Decode.lean ====
section
/-! DEFINITION. The decoder as a cursor over bytes, with the opcode map, and after it the encoder
(spec/30_encoding.md rules R36 to R57; the cursor form is the design note of R55). -/

namespace Sys2Proof

/-- The total encoded length in bytes, the opcode byte included (R44). -/
def Opcode.ilen : Opcode → Nat
  | .load | .add | .sub | .mul | .div => 4
  | .jmp | .jmpf | .jmpb | .jmpe => 2
  | .eq | .neq | .gte | .lte | .lt | .gt => 4
  | .halt | .illegal => 1

/-- The encoded length of an instruction (R44). -/
def Instr.ilen (i : Instr) : Nat := i.op.ilen

/-- The default OPMAP, the numbering of R50. UNVERIFIED (the spec's own decision D1, assumption log 1); unsafe for
claims about concrete bytes. -/
def opTable : OpTable := definedOps

/-- OPMAP: the symbolic operation of an opcode byte; a byte the table does not reach, 16 to 255, is Illegal
(R48, R51). -/
def opMap (t : OpTable) (b : Byte) : Opcode := t.getD b.toNat .illegal

/-- Why a byte sequence spells no whole instruction. The opcode byte itself is never rejected (R92: "decoding never
fails"); only missing bytes are. -/
inductive DecodeError where
  /-- there is no opcode byte -/
  | noOpcode
  /-- the operation needs `need` bytes in all and the sequence ends before them -/
  | truncated (need : Nat)
deriving DecidableEq, Repr

/-- `read_byte()` of R37: one raw byte, and the cursor moved by 1. -/
def readByte : List Byte → Option (Byte × List Byte)
  | [] => none
  | b :: bs => some (b, bs)

/-- Two bytes joined big-endian, `(first << 8) | second` (R25, R37). -/
def joinWord (first second : Byte) : Half := (first.setWidth 16 <<< 8) ||| second.setWidth 16

/-- `read_word()` of R37: two bytes combined big-endian, and the cursor moved by 2. -/
def readWord : List Byte → Option (Half × List Byte)
  | b :: c :: bs => some (joinWord b c, bs)
  | _ => none

/-- Format J: one operand byte (R39). -/
def decodeJ (mk : Byte → Instr) (bs : List Byte) : Option (Instr × List Byte) :=
  match readByte bs with
  | none => none
  | some (b1, bs1) => some (mk b1, bs1)

/-- Format L: one operand byte, then the immediate word (R40). -/
def decodeL (mk : Byte → Half → Instr) (bs : List Byte) : Option (Instr × List Byte) :=
  match readByte bs with
  | none => none
  | some (b1, bs1) =>
    match readWord bs1 with
    | none => none
    | some (w, bs2) => some (mk b1 w, bs2)

/-- Formats R and C: three operand bytes (R41, R42). -/
def decodeRC (mk : Byte → Byte → Byte → Instr) (bs : List Byte) : Option (Instr × List Byte) :=
  match readByte bs with
  | none => none
  | some (b1, bs1) =>
    match readByte bs1 with
    | none => none
    | some (b2, bs2) =>
      match readByte bs2 with
      | none => none
      | some (b3, bs3) => some (mk b1 b2 b3, bs3)

/-- The operand reads of each operation, after its opcode byte `b0` (R43). -/
def decodeOperands (b0 : Byte) : Opcode → List Byte → Option (Instr × List Byte)
  | .load, bs => decodeL .load bs
  | .add, bs => decodeRC .add bs
  | .sub, bs => decodeRC .sub bs
  | .mul, bs => decodeRC .mul bs
  | .div, bs => decodeRC .div bs
  | .jmp, bs => decodeJ .jmp bs
  | .jmpf, bs => decodeJ .jmpf bs
  | .jmpb, bs => decodeJ .jmpb bs
  | .eq, bs => decodeRC .eq bs
  | .neq, bs => decodeRC .neq bs
  | .gte, bs => decodeRC .gte bs
  | .lte, bs => decodeRC .lte bs
  | .lt, bs => decodeRC .lt bs
  | .gt, bs => decodeRC .gt bs
  | .jmpe, bs => decodeJ .jmpe bs
  | .halt, bs => some (.halt, bs)
  | .illegal, bs => some (.illegal b0, bs)

/-- Decoding under an opcode table: the instruction at the head of the bytes and the bytes after it, or what is
missing (R36, R37, R54). -/
def decodeAt (t : OpTable) : List Byte → Except DecodeError (Instr × List Byte)
  | [] => .error .noOpcode
  | b0 :: bs =>
    match decodeOperands b0 (opMap t b0) bs with
    | some r => .ok r
    | none => .error (.truncated (opMap t b0).ilen)

/-- Decoding under the default OPMAP. -/
def decode (bs : List Byte) : Except DecodeError (Instr × List Byte) := decodeAt opTable bs

/-- The byte of a defined operation, `OP(m)` of R59: its place in the table. -/
def opByte (t : OpTable) (op : Opcode) : Byte := BitVec.ofNat 8 (t.idxOf op)

/-- The high byte of the immediate, `imm >> 8` (R40, R59). -/
def immHigh (imm : Half) : Byte := (imm >>> 8).setWidth 8

/-- The low byte of the immediate, `imm & 0xFF` (R40, R59). -/
def immLow (imm : Half) : Byte := imm.setWidth 8

/-- The bytes of an instruction under an opcode table, in buffer order (R38 to R42). -/
def encodeAt (t : OpTable) : Instr → List Byte
  | .load rd imm => [opByte t .load, rd, immHigh imm, immLow imm]
  | .add rs1 rs2 rd => [opByte t .add, rs1, rs2, rd]
  | .sub rs1 rs2 rd => [opByte t .sub, rs1, rs2, rd]
  | .mul rs1 rs2 rd => [opByte t .mul, rs1, rs2, rd]
  | .div rs1 rs2 rd => [opByte t .div, rs1, rs2, rd]
  | .jmp rt => [opByte t .jmp, rt]
  | .jmpf rt => [opByte t .jmpf, rt]
  | .jmpb rt => [opByte t .jmpb, rt]
  | .eq r1 r2 pad => [opByte t .eq, r1, r2, pad]
  | .neq r1 r2 pad => [opByte t .neq, r1, r2, pad]
  | .gte r1 r2 pad => [opByte t .gte, r1, r2, pad]
  | .lte r1 r2 pad => [opByte t .lte, r1, r2, pad]
  | .lt r1 r2 pad => [opByte t .lt, r1, r2, pad]
  | .gt r1 r2 pad => [opByte t .gt, r1, r2, pad]
  | .jmpe rt => [opByte t .jmpe, rt]
  | .halt => [opByte t .halt]
  | .illegal code => [code]

/-- Encoding under the default OPMAP. -/
def encode (i : Instr) : List Byte := encodeAt opTable i

/-- Byte number `k` of a number whose bit 0 is the least significant bit of the first byte. -/
def byteOf (w k : Nat) : Byte := BitVec.ofNat 8 (w / 256 ^ k)

/-- The four bytes (the longest instruction) that a table word of `nbits` bits lays out, the first at the lowest
offset; every bit from `nbits` on is 0. -/
def tableBytes (nbits w : Nat) : List Byte :=
  let v := w % 2 ^ nbits
  [byteOf v 0, byteOf v 1, byteOf v 2, byteOf v 3]

/-- The instruction the decoder reads from a word numbered as spec/opcode_table.json numbers its bits. -/
def decodeTableWord (nbits w : Nat) : Option Instr :=
  match decode (tableBytes nbits w) with
  | .ok (i, _) => some i
  | .error _ => none

end Sys2Proof
end

