-- ==== Sys2Proof/Machine/State.lean ====
section
/-! DEFINITION. The whole state of the engine as plain data, the reasons a step of the model can stop, and reset
(spec/10_state.md, spec/60_exceptions.md R107, spec/70_reset_and_hazards.md R126). -/

namespace Sys2Proof.Machine

/-- The two cases of a jump-offset fault, its `info` (spec/60_exceptions.md R107, R111). -/
inductive OffsetCase where
  /-- a backward jump's distance exceeds `next` -/
  | underflow
  /-- a forward jump's sum does not fit the 32-bit program counter -/
  | overflow
deriving DecidableEq, Repr

/-- A fault of the engine, its kind together with its `info` (spec/60_exceptions.md R107). These are ordinary outcomes
of the machine: raising one is a NEXT state in which the engine is halted (R113), never a `Fault` of the model. -/
inductive EngineFault where
  /-- kind 1, raised by Div on a zero divisor (R108) -/
  | divideByZero
  /-- kind 2, raised by Jmpb (underflow) and Jmpf (overflow) (R111) -/
  | jumpOffsetOutOfRange (which : OffsetCase)
  /-- kind 3, the first register-index byte above 31 in encoding order (R110) -/
  | registerIndexOutOfRange (v : Byte)
  /-- kind 4, the attempted program counter, an exact number (R112; assumption log 15) -/
  | pcOutOfRange (target : Nat)
  /-- kind 5, only when ARITH_OVERFLOW is fault (R109) -/
  | arithmeticOverflow
deriving DecidableEq, Repr

/-- Why the engine halted (spec/10_state.md R16). -/
inductive HaltCause where
  /-- the program counter reached the end of the buffer (spec/50_engine.md R91) -/
  | endOfBuffer
  /-- a Halt was executed (spec/45_termination.md R86) -/
  | haltOp
  /-- an Illegal was executed (spec/45_termination.md R87) -/
  | illegalOp
  /-- a fault stopped the engine (spec/60_exceptions.md R113) -/
  | fault (f : EngineFault)
deriving DecidableEq, Repr

/-- `run_state` with `halt_cause`: the cause is valid exactly when the engine is Halted (spec/10_state.md R16), so
it is stored only there (assumption log 9). -/
inductive RunState where
  | running
  | halted (cause : HaltCause)
deriving DecidableEq, Repr

/-- A diagnostic notice, without payload (spec/45_termination.md R88). -/
inductive Notice where
  | haltNotice
  | illegalNotice
deriving DecidableEq, Repr

/-- What a listed-nowhere offset below the length holds. It is a convention of the representation: `load program`
gives every offset below LEN its byte, and the list leaves out the zero ones. DESIGN CHOICE (assumption log 6), unsafe
for a memory built by hand. -/
def Memory.unlisted : Byte := 0

/-- The instruction buffer: its length LEN and its bytes that differ from `Memory.unlisted`, by offset
(spec/10_state.md R20, spec/20_memory.md R23). LEN has PCW bits because `pc` must be able to hold it
(decision D2, assumption log 3). -/
structure Memory where
  cells : List Host.Cell
  len : BitVec 32
deriving DecidableEq, Repr

/-- The canonical form: offsets strictly rising, no entry equal to what an unlisted offset reads as, none at or
past LEN. -/
abbrev Memory.wf (m : Memory) : Prop :=
  (m.cells.map Prod.fst).Pairwise (· < ·) ∧ ∀ c ∈ m.cells, c.2 ≠ Memory.unlisted ∧ c.1 < m.len.toNat

/-- The empty buffer (spec/70_reset_and_hazards.md R126). -/
def Memory.empty : Memory := ⟨[], 0#32⟩

/-- The state of the engine (spec/10_state.md R18), with the diagnostic output emitted so far. -/
structure State where
  /-- `x[0]` to `x[31]` (R10) -/
  regs : Vector Word 32
  /-- the program counter (R13) -/
  pc : BitVec 32
  /-- the equal flag `eq` (R15) -/
  eqFlag : Bool
  /-- the remainder register `rem` (R17) -/
  rem : Word
  /-- `run_state` and `halt_cause` (R16) -/
  run : RunState
  /-- the instruction buffer `buf` with LEN (R20) -/
  buf : Memory
  /-- the diagnostic output stream, oldest first (spec/45_termination.md R88; assumption log 10) -/
  notices : List Notice
deriving DecidableEq, Repr

/-- The reasons the MODEL stops. No step reaches any of them: the faults of the engine are next states. -/
inductive Fault where
  /-- Raised by `Memory.memRead` for an offset at or past LEN, where MemRead is not defined (spec/00_scope.md R8,
  spec/20_memory.md R29). Safe: the step checks the bound first, so no step raises it. -/
  | readOutsideBuffer (addr : Nat)
deriving DecidableEq, Repr

/-- The reasons the model gives no meaning. No step reaches any of them. -/
inductive Refusal where
  /-- Raised by an arm of `exec` that has no meaning yet. Safe. No arm answers it. -/
  | notModelled (mnemonic : String)
  /-- Raised by `stepWith` when the decoder rejects the bytes that were fetched. Safe: exactly the
  instruction's length is fetched, so no step raises it. -/
  | undecodable (reason : DecodeError)
deriving DecidableEq, Repr

/-- Reset with REM_RESET and EQ_RESET as arguments (spec/00_scope.md R6, spec/70_reset_and_hazards.md R126). -/
def State.resetWith (remReset : Word) (eqReset : Bool) : State where
  regs := Vector.replicate 32 0#32
  pc := 0#32
  eqFlag := eqReset
  rem := remReset
  run := .running
  buf := Memory.empty
  notices := []

/-- The machine right after reset (spec/10_state.md R22, spec/70_reset_and_hazards.md R126). `rem` = 0 and
`eq` = false are the spec's decision D6 (assumption log 4). -/
def State.reset : State := State.resetWith 0#32 false

end Sys2Proof.Machine
end

