-- ==== Sys2Proof/Machine/Operands.lean ====
section
/-! DEFINITION. How operand bytes and register values are read (spec/00_scope.md R7, spec/30_encoding.md R45, R46). -/

namespace Sys2Proof.Machine

/-- `s(v)`: the value as a signed two's-complement integer (R7). -/
def sVal (v : Word) : Int := v.toInt

/-- `u(v)`: the value as an unsigned integer (R7). -/
def uVal (v : Word) : Nat := v.toNat

/-- `to32(n)`: the 32-bit vector congruent to `n` modulo 2^32 (R7). -/
def to32 (n : Int) : Word := BitVec.ofInt 32 n

/-- `zext_16(imm16)`: the immediate widened with its value preserved (R45; conflict C1 decides against sign
extension). -/
def zext16 (imm : Half) : Word := imm.setWidth 32

/-- The register an index byte names, 0 to 31, or RegisterIndexOutOfRange with the byte (R46, R94,
spec/60_exceptions.md R110). No bit of the byte is ignored. -/
def regIndex (v : Byte) : Except EngineFault (Fin 32) :=
  if h : v.toNat < 32 then .ok ⟨v.toNat, h⟩ else .error (.registerIndexOutOfRange v)

/-- Two register-index bytes, checked in encoding order (R94, format C). -/
def regIndex2 (v w : Byte) : Except EngineFault (Fin 32 × Fin 32) :=
  match regIndex v with
  | .error f => .error f
  | .ok i =>
    match regIndex w with
    | .error f => .error f
    | .ok j => .ok (i, j)

/-- Three register-index bytes, checked in encoding order (R94, format R). -/
def regIndex3 (v w z : Byte) : Except EngineFault (Fin 32 × Fin 32 × Fin 32) :=
  match regIndex2 v w with
  | .error f => .error f
  | .ok (i, j) =>
    match regIndex z with
    | .error f => .error f
    | .ok k => .ok (i, j, k)

end Sys2Proof.Machine
end

