-- ==== Sys2Proof/Machine/Alu.lean ====
section
/-! DEFINITION. The arithmetic of Add, Sub, Mul and Div on exact integers, narrowed at the end
(spec/41_arithmetic.md R62 to R68). -/

namespace Sys2Proof.Machine

/-- The default of ARITH_OVERFLOW. UNVERIFIED (the spec's own decisions D3 and D4, assumption log 2); unsafe for claims
about results that overflow. -/
def arithOverflow : ArithOverflow := .wrap

/-- The exact integer fits 32 signed bits. -/
def fits32 (e : Int) : Bool := decide (-2 ^ 31 ≤ e ∧ e ≤ 2 ^ 31 - 1)

/-- The exact result narrowed to 32 bits, or ArithmeticOverflow when it does not fit and the parameter says so
(R63 to R66, R68). -/
def narrow (m : ArithOverflow) (e : Int) : Except EngineFault Word :=
  if fits32 e then .ok (to32 e)
  else match m with
    | .wrap => .ok (to32 e)
    | .fault => .error .arithmeticOverflow

/-- R63 -/
def aluAdd (m : ArithOverflow) (a b : Word) : Except EngineFault Word := narrow m (sVal a + sVal b)

/-- R64: `a` is the minuend. -/
def aluSub (m : ArithOverflow) (a b : Word) : Except EngineFault Word := narrow m (sVal a - sVal b)

/-- R65 -/
def aluMul (m : ArithOverflow) (a b : Word) : Except EngineFault Word := narrow m (sVal a * sVal b)

/-- The quotient rounded toward zero (R66, R67). -/
def quotient (a b : Word) : Int := (sVal a).tdiv (sVal b)

/-- The remainder that goes with that quotient, zero or of the dividend's sign (R66, R67; decision D5, assumption log
12). -/
def remainder (a b : Word) : Int := sVal a - quotient a b * sVal b

/-- R66: the quotient and the bit pattern of the signed remainder; a zero divisor faults before anything else. -/
def aluDiv (m : ArithOverflow) (a b : Word) : Except EngineFault (Word × Word) :=
  if sVal b = 0 then .error .divideByZero
  else match narrow m (quotient a b) with
    | .error f => .error f
    | .ok q => .ok (q, to32 (remainder a b))

end Sys2Proof.Machine
end

