-- ==== Sys2Proof/Machine/Ops.lean ====
section
/-! DEFINITION. The operations every instruction and the host surface are made of: reads of the instruction buffer,
reads and writes of the registers, halting, raising a fault, and the two ways back to Running. -/

namespace Sys2Proof.Machine

/-- The outcome of executing an instruction or a step. -/
abbrev Outcome := Host.Outcome State Fault Refusal

/-! ### The instruction buffer -/

/-- The byte at an offset, where there is one: `buf[a]` is defined for `a < LEN` (spec/00_scope.md R8). -/
def Memory.byteAt (m : Memory) (a : Nat) : Option Byte :=
  if a < m.len.toNat then some ((m.cells.lookup a).getD Memory.unlisted) else none

/-- `MemRead(a, 1)`; a fault of the model outside its domain (spec/00_scope.md R8, spec/20_memory.md R29). -/
def Memory.memRead (m : Memory) (a : Nat) : Except Fault Byte :=
  match m.byteAt a with
  | some b => .ok b
  | none => .error (.readOutsideBuffer a)

/-- `MemRead(a + k, 1)` for `k` from 0 to `n - 1`, in increasing offset (spec/20_memory.md R25, R28). The 2-byte
read of Load's immediate is two of these, joined big-endian by the decoder (R26). -/
def Memory.readBytes (m : Memory) (a : Nat) : Nat → Except Fault (List Byte)
  | 0 => .ok []
  | n + 1 =>
    match m.memRead a with
    | .error f => .error f
    | .ok b =>
      match m.readBytes (a + 1) n with
      | .error f => .error f
      | .ok bs => .ok (b :: bs)

/-- The listed cells of a byte sequence that starts at offset `a`: the zero bytes are left out. -/
def cellsFrom (a : Nat) : List Byte → List Host.Cell
  | [] => []
  | b :: bs => if b = Memory.unlisted then cellsFrom (a + 1) bs else (a, b) :: cellsFrom (a + 1) bs

/-- The buffer that holds exactly these bytes (spec/50_engine.md R103). -/
def Memory.ofBytes (bytes : List Byte) : Memory := ⟨cellsFrom 0 bytes, BitVec.ofNat 32 bytes.length⟩

/-- The cells with the byte at offset `a` set, in canonical form. -/
def setCell (a : Nat) (b : Byte) : List Host.Cell → List Host.Cell
  | [] => if b = Memory.unlisted then [] else [(a, b)]
  | (k, v) :: cs =>
    if a < k then (if b = Memory.unlisted then (k, v) :: cs else (a, b) :: (k, v) :: cs)
    else if a = k then (if b = Memory.unlisted then cs else (a, b) :: cs)
    else (k, v) :: setCell a b cs

/-- The buffer with the byte at offset `a` set and LEN raised so that `a` lies inside; unchanged where no LEN can
reach past `a`. No rule of the machine uses it (spec/20_memory.md R24): it stands for the host's load when one
instruction is placed (`State.withFetchWord`). -/
def Memory.setByte (m : Memory) (a : Nat) (b : Byte) : Memory :=
  if a + 1 < 2 ^ 32 then
    ⟨setCell a b m.cells, if a < m.len.toNat then m.len else BitVec.ofNat 32 (a + 1)⟩
  else m

/-- Bytes set at consecutive offsets from `a`. -/
def Memory.setBytes (m : Memory) (a : Nat) : List Byte → Memory
  | [] => m
  | b :: bs => (m.setByte a b).setBytes (a + 1) bs

/-! ### Registers, flag, program counter -/

/-- LEN, as a number. -/
def State.len (s : State) : Nat := s.buf.len.toNat

/-- `x[i]` (spec/00_scope.md R8). -/
def State.x (s : State) (i : Fin 32) : Word := s.regs.get i

/-- `x[i] <- v` (spec/00_scope.md R8). -/
def State.setX (s : State) (i : Fin 32) (v : Word) : State := { s with regs := s.regs.set i v }

/-- `pc <- t`. Every step passes a `t` of at most LEN (spec/10_state.md R13). -/
def State.setPc (s : State) (t : Nat) : State := { s with pc := BitVec.ofNat 32 t }

/-- `eq <- b`. -/
def State.setEq (s : State) (b : Bool) : State := { s with eqFlag := b }

/-- `rem <- v`. -/
def State.setRem (s : State) (v : Word) : State := { s with rem := v }

/-- `next`: the exact offset after an instruction of `n` bytes at `pc` (spec/10_state.md R14). -/
def State.next (s : State) (n : Nat) : Nat := s.pc.toNat + n

/-! ### Halting, faulting, and the ways back -/

/-- `notice(k)`: one event appended to the diagnostic output (spec/45_termination.md R88; assumption log 10). -/
def State.emit (s : State) (n : Notice) : State := { s with notices := s.notices ++ [n] }

/-- `run_state <- Halted` with its cause. -/
def State.haltWith (s : State) (c : HaltCause) : State := { s with run := .halted c }

/-- `raise Fault(kind, info)`: the one entry of every fault. The engine halts with that cause and nothing else
changes: no register, not `pc`, not `eq`, not `rem`, not the buffer, and no notice
(spec/60_exceptions.md R113, R114). There is no handler and no return (R117); the ways back to Running are
`loadProgram` and `hostReset` below. -/
def State.raiseFault (s : State) (f : EngineFault) : State := s.haltWith (.fault f)

/-- Commit an instruction: either every write of its rule, or its fault and none of them
(spec/50_engine.md R96, spec/60_exceptions.md R113). -/
def commit (s : State) : Except EngineFault State → Outcome
  | .ok t => .next t
  | .error f => .next (s.raiseFault f)

/-- `load program(bytes)`: replaces the buffer, sets `pc` to 0 and Running, keeps the registers, `eq` and `rem`
(spec/50_engine.md R103; decision D15, assumption log 13). `none` for a sequence of 2^32 bytes or more, which no LEN can
hold. -/
def loadProgram (bytes : List Byte) (s : State) : Option State :=
  if bytes.length < 2 ^ 32 then
    some { s with buf := Memory.ofBytes bytes, pc := 0#32, run := .running }
  else none

/-- The host's `reset` command with the two reset parameters (spec/70_reset_and_hazards.md R126). Notices already
emitted stay emitted (assumption log 10). -/
def hostResetWith (remReset : Word) (eqReset : Bool) (s : State) : State :=
  { State.resetWith remReset eqReset with notices := s.notices }

/-- The host's `reset` command (spec/70_reset_and_hazards.md R125, R126). -/
def hostReset (s : State) : State := hostResetWith 0#32 false s

end Sys2Proof.Machine
end

