-- ==== Sys2Proof/Machine/Arith.lean ====
section
/-! DEFINITION. Add, Sub, Mul and Div (spec/41_arithmetic.md), with ARITH_OVERFLOW as an argument, and the four
instructions at its default. -/

namespace Sys2Proof.Machine

/-- The shape Add, Sub and Mul share (R62): both sources read, one result computed, then `x[rd]` and `pc` written. -/
def arith3 (alu : Word → Word → Except EngineFault Word) (rs1 rs2 rd : Byte) (s : State) : Outcome :=
  commit s <| match regIndex3 rs1 rs2 rd with
    | .error f => .error f
    | .ok (i, j, d) =>
      match alu (s.x i) (s.x j) with
      | .error f => .error f
      | .ok v => .ok ((s.setX d v).setPc (s.next 4))

/-- Add under a given ARITH_OVERFLOW (R63, R68). -/
def execAddAt (m : ArithOverflow) (rs1 rs2 rd : Byte) (s : State) : Outcome := arith3 (aluAdd m) rs1 rs2 rd s

/-- Sub under a given ARITH_OVERFLOW (R64, R68). -/
def execSubAt (m : ArithOverflow) (rs1 rs2 rd : Byte) (s : State) : Outcome := arith3 (aluSub m) rs1 rs2 rd s

/-- Mul under a given ARITH_OVERFLOW (R65, R68). -/
def execMulAt (m : ArithOverflow) (rs1 rs2 rd : Byte) (s : State) : Outcome := arith3 (aluMul m) rs1 rs2 rd s

/-- Div under a given ARITH_OVERFLOW (R66, R68): the quotient to `x[rd]`, the remainder's bits to `rem`. -/
def execDivAt (m : ArithOverflow) (rs1 rs2 rd : Byte) (s : State) : Outcome :=
  commit s <| match regIndex3 rs1 rs2 rd with
    | .error f => .error f
    | .ok (i, j, d) =>
      match aluDiv m (s.x i) (s.x j) with
      | .error f => .error f
      | .ok (q, r) => .ok (((s.setX d q).setRem r).setPc (s.next 4))

/-- Add (R63) at the default ARITH_OVERFLOW (R68). -/
def execAdd (rs1 rs2 rd : Byte) (s : State) : Outcome := execAddAt arithOverflow rs1 rs2 rd s

/-- Sub (R64) at the default ARITH_OVERFLOW (R68). -/
def execSub (rs1 rs2 rd : Byte) (s : State) : Outcome := execSubAt arithOverflow rs1 rs2 rd s

/-- Mul (R65) at the default ARITH_OVERFLOW (R68). -/
def execMul (rs1 rs2 rd : Byte) (s : State) : Outcome := execMulAt arithOverflow rs1 rs2 rd s

/-- Div (R66) at the default ARITH_OVERFLOW (R68). -/
def execDiv (rs1 rs2 rd : Byte) (s : State) : Outcome := execDivAt arithOverflow rs1 rs2 rd s

end Sys2Proof.Machine
end

