-- ==== Sys2Proof/Machine/Flags.lean ====
section
/-! DEFINITION. The value of the one flag `eq` after each comparison: the truth of a relation between two signed
values (spec/10_state.md R15, spec/43_compare.md R76 to R83). There is no other flag. -/

namespace Sys2Proof.Machine

/-- R77 -/
def relEq (a b : Word) : Bool := decide (sVal a = sVal b)

/-- R78: true when the values differ. -/
def relNeq (a b : Word) : Bool := decide (sVal a ≠ sVal b)

/-- R79 -/
def relGte (a b : Word) : Bool := decide (sVal a ≥ sVal b)

/-- R80 -/
def relLte (a b : Word) : Bool := decide (sVal a ≤ sVal b)

/-- R81 -/
def relLt (a b : Word) : Bool := decide (sVal a < sVal b)

/-- R82 -/
def relGt (a b : Word) : Bool := decide (sVal a > sVal b)

end Sys2Proof.Machine
end

