-- ==== Sys2Proof/Machine/Compare.lean ====
section
/-! DEFINITION. Eq, Neq, Gte, Lte, Lt and Gt (spec/43_compare.md). The pad byte is ignored (spec/30_encoding.md R47). -/

namespace Sys2Proof.Machine

/-- What the six comparisons share (R76): `eq` is the truth of the relation between `x[r1]` and `x[r2]`. -/
def compare2 (rel : Word → Word → Bool) (r1 r2 : Byte) (s : State) : Outcome :=
  commit s <| match regIndex2 r1 r2 with
    | .error f => .error f
    | .ok (i, j) => .ok ((s.setEq (rel (s.x i) (s.x j))).setPc (s.next 4))

/-- Eq (R77). -/
def execEq (r1 r2 _pad : Byte) (s : State) : Outcome := compare2 relEq r1 r2 s

/-- Neq (R78). -/
def execNeq (r1 r2 _pad : Byte) (s : State) : Outcome := compare2 relNeq r1 r2 s

/-- Gte (R79). -/
def execGte (r1 r2 _pad : Byte) (s : State) : Outcome := compare2 relGte r1 r2 s

/-- Lte (R80). -/
def execLte (r1 r2 _pad : Byte) (s : State) : Outcome := compare2 relLte r1 r2 s

/-- Lt (R81). -/
def execLt (r1 r2 _pad : Byte) (s : State) : Outcome := compare2 relLt r1 r2 s

/-- Gt (R82). -/
def execGt (r1 r2 _pad : Byte) (s : State) : Outcome := compare2 relGt r1 r2 s

end Sys2Proof.Machine
end

