-- ==== Sys2Proof/Machine/Jump.lean ====
section
/-! DEFINITION. Jmp, Jmpf and Jmpb (spec/42_jumps.md) and the conditional Jmpe (spec/44_cond_branch.md). -/

namespace Sys2Proof.Machine

/-- `pc <- t` for a target inside `[0, LEN]`, else PcOutOfRange (spec/60_exceptions.md R112). -/
def jumpTo (s : State) (t : Nat) : Except EngineFault State :=
  if t > s.len then .error (.pcOutOfRange t) else .ok (s.setPc t)

/-- Jmp (R71): absolute, the register read unsigned. -/
def execJmp (rt : Byte) (s : State) : Outcome :=
  commit s <| match regIndex rt with
    | .error f => .error f
    | .ok i => jumpTo s (uVal (s.x i))

/-- Jmpf (R72): forward from the end of the two-byte jump; a sum of 2^32 or more is the overflow of a jump offset
(decision D11, assumption log 8). -/
def execJmpf (rt : Byte) (s : State) : Outcome :=
  commit s <| match regIndex rt with
    | .error f => .error f
    | .ok i =>
      let t := s.next 2 + uVal (s.x i)
      if t ≥ 2 ^ 32 then .error (.jumpOffsetOutOfRange .overflow) else jumpTo s t

/-- Jmpb (R73): backward from the end of the two-byte jump. -/
def execJmpb (rt : Byte) (s : State) : Outcome :=
  commit s <| match regIndex rt with
    | .error f => .error f
    | .ok i =>
      let d := uVal (s.x i)
      if d > s.next 2 then .error (.jumpOffsetOutOfRange .underflow) else .ok (s.setPc (s.next 2 - d))

/-- Jmpe (R84): as Jmp when `eq` is true, else on to the next instruction; the index byte is checked either way
(decision D10, assumption log 8). -/
def execJmpe (rt : Byte) (s : State) : Outcome :=
  commit s <| match regIndex rt with
    | .error f => .error f
    | .ok i => if s.eqFlag then jumpTo s (uVal (s.x i)) else .ok (s.setPc (s.next 2))

end Sys2Proof.Machine
end

