-- ==== Sys2Proof/Machine/Load.lean ====
section
/-! DEFINITION. Load (spec/40_load.md). -/

namespace Sys2Proof.Machine

/-- Load (R60, R45): the zero-extended immediate to `x[rd]`. -/
def execLoad (rd : Byte) (imm : Half) (s : State) : Outcome :=
  commit s <| match regIndex rd with
    | .error f => .error f
    | .ok d => .ok ((s.setX d (zext16 imm)).setPc (s.next 4))

end Sys2Proof.Machine
end

