-- ==== Sys2Proof/Machine/Termination.lean ====
section
/-! DEFINITION. Halt and Illegal (spec/45_termination.md): normal terminal transitions, never faults. -/

namespace Sys2Proof.Machine

/-- Halt (R86). -/
def execHalt (s : State) : Outcome := .next (((s.emit .haltNotice).setPc (s.next 1)).haltWith .haltOp)

/-- Illegal (R87). The byte is recorded nowhere: all 240 behave alike. -/
def execIllegal (_code : Byte) (s : State) : Outcome :=
  .next (((s.emit .illegalNotice).setPc (s.next 1)).haltWith .illegalOp)

end Sys2Proof.Machine
end

