-- ==== Sys2Proof/Machine/Dispatch.lean ====
section
/-! DEFINITION. The execute stage: one arm per operation (spec/50_engine.md R93 line 8, R95). -/

namespace Sys2Proof.Machine

-- Dispatch over the closed set of 17 operations, each with its own rule.
def exec (i : Instr) (s : State) : Host.Outcome State Fault Refusal :=
  match i with
  | .load rd imm => Sys2Proof.Machine.execLoad rd imm s
  | .add rs1 rs2 rd => Sys2Proof.Machine.execAdd rs1 rs2 rd s
  | .sub rs1 rs2 rd => Sys2Proof.Machine.execSub rs1 rs2 rd s
  | .mul rs1 rs2 rd => Sys2Proof.Machine.execMul rs1 rs2 rd s
  | .div rs1 rs2 rd => Sys2Proof.Machine.execDiv rs1 rs2 rd s
  | .jmp rt => Sys2Proof.Machine.execJmp rt s
  | .jmpf rt => Sys2Proof.Machine.execJmpf rt s
  | .jmpb rt => Sys2Proof.Machine.execJmpb rt s
  | .eq r1 r2 pad => Sys2Proof.Machine.execEq r1 r2 pad s
  | .neq r1 r2 pad => Sys2Proof.Machine.execNeq r1 r2 pad s
  | .gte r1 r2 pad => Sys2Proof.Machine.execGte r1 r2 pad s
  | .lte r1 r2 pad => Sys2Proof.Machine.execLte r1 r2 pad s
  | .lt r1 r2 pad => Sys2Proof.Machine.execLt r1 r2 pad s
  | .gt r1 r2 pad => Sys2Proof.Machine.execGt r1 r2 pad s
  | .jmpe rt => Sys2Proof.Machine.execJmpe rt s
  | .halt => Sys2Proof.Machine.execHalt s
  | .illegal code => Sys2Proof.Machine.execIllegal code s

end Sys2Proof.Machine
end

