-- ==== Sys2Proof/Machine/Fetch.lean ====
section
/-! DEFINITION. The part of a step before the instruction's own rule: halt check, end-of-buffer check, fetch and
decode (spec/50_engine.md R91 to R93, R98). -/

namespace Sys2Proof.Machine

/-- What the fetch at `pc` finds. -/
inductive Fetched where
  /-- `pc` is at or past LEN (R91) -/
  | endOfBuffer
  /-- the instruction's bytes would run to `next`, past LEN (R93 line 5) -/
  | truncated (next : Nat)
  /-- the bytes of one whole instruction -/
  | bytes (bs : List Byte)
deriving DecidableEq, Repr

/-- Lines 2 to 6 of R93: the bound on the opcode byte, the opcode byte, its length, the bound on the whole
instruction, then the operand bytes. -/
def fetch (t : OpTable) (s : State) : Except Fault Fetched :=
  if s.pc.toNat ≥ s.len then .ok .endOfBuffer
  else match s.buf.memRead s.pc.toNat with
    | .error f => .error f
    | .ok b0 =>
      if s.next (opMap t b0).ilen > s.len then .ok (.truncated (s.next (opMap t b0).ilen))
      else match s.buf.readBytes (s.pc.toNat + 1) ((opMap t b0).ilen - 1) with
        | .error f => .error f
        | .ok bs => .ok (.bytes (b0 :: bs))

/-- The whole step of R93 around an execute stage `ex`, under an opcode table. Line 1: a step of a halted engine changes
nothing (R98; decision D14, assumption log 9). Line 7, the register-index check, is the first thing `ex` does. -/
def stepWith (t : OpTable) (ex : Instr → State → Outcome) (s : State) : Outcome :=
  match s.run with
  | .halted _ => .next s
  | .running =>
    match fetch t s with
    | .error f => .fault f
    | .ok .endOfBuffer => .next (s.haltWith .endOfBuffer)
    | .ok (.truncated next) => .next (s.raiseFault (.pcOutOfRange next))
    | .ok (.bytes bs) =>
      match decodeAt t bs with
      | .error e => .refused (.undecodable e)
      | .ok (i, _) => ex i s

/-- Where one instruction's bytes go so that the next step runs it: at `pc`, or at 0 with `pc` sent there when the
bytes would not fit below the largest LEN (assumption log 20). -/
def placeInstr (s : State) (bs : List Byte) : State :=
  if s.pc.toNat + bs.length < 2 ^ 32 then
    { s with buf := s.buf.setBytes s.pc.toNat bs, run := .running }
  else
    { s with buf := s.buf.setBytes 0 bs, pc := 0#32, run := .running }

end Sys2Proof.Machine
end

