-- ==== Sys2Proof/Machine/Step.lean ====
section
/-! DEFINITION. One step of the engine at the spec's default parameters (spec/50_engine.md R93), and the placing of one
instruction where the next step fetches. -/

namespace Sys2Proof.Machine

/-- One step. -/
def step (s : State) : Host.Outcome State Fault Refusal := stepWith opTable exec s

/-- `s` with one instruction, numbered as spec/opcode_table.json numbers its bits, where the next step fetches. It
stands for the host's `load program` (assumption log 5). -/
def State.withFetchWord (s : State) (nbits w : Nat) : State := placeInstr s (tableBytes nbits w)

end Sys2Proof.Machine
end

