-- ==== Sys2Proof/Machine/Parametric.lean ====
section
/-! DEFINITION. The machine with the parameters of spec/00_scope.md R6 as arguments: OPMAP, ARITH_OVERFLOW, REM_RESET
and EQ_RESET. `step` and `State.reset` are this machine at `defaultParams`. -/

namespace Sys2Proof.Machine

/-- The spec's defaults (R6, decisions D1, D3, D4, D6). -/
def defaultParams : Params := ⟨arithOverflow, opTable, 0#32, false⟩

/-- The execute stage under a given ARITH_OVERFLOW. -/
def execAt (m : ArithOverflow) (i : Instr) (s : State) : Outcome :=
  match i with
  | .load rd imm => execLoad rd imm s
  | .add rs1 rs2 rd => execAddAt m rs1 rs2 rd s
  | .sub rs1 rs2 rd => execSubAt m rs1 rs2 rd s
  | .mul rs1 rs2 rd => execMulAt m rs1 rs2 rd s
  | .div rs1 rs2 rd => execDivAt m rs1 rs2 rd s
  | .jmp rt => execJmp rt s
  | .jmpf rt => execJmpf rt s
  | .jmpb rt => execJmpb rt s
  | .eq r1 r2 pad => execEq r1 r2 pad s
  | .neq r1 r2 pad => execNeq r1 r2 pad s
  | .gte r1 r2 pad => execGte r1 r2 pad s
  | .lte r1 r2 pad => execLte r1 r2 pad s
  | .lt r1 r2 pad => execLt r1 r2 pad s
  | .gt r1 r2 pad => execGt r1 r2 pad s
  | .jmpe rt => execJmpe rt s
  | .halt => execHalt s
  | .illegal code => execIllegal code s

/-- One step under given parameters. -/
def stepAt (p : Params) (s : State) : Outcome := stepWith p.opTable (execAt p.overflow) s

/-- The state right after reset under given parameters. -/
def resetAt (p : Params) : State := State.resetWith p.remReset p.eqReset

end Sys2Proof.Machine
end

