-- ==== Sys2Proof/Machine/HostSurface.lean ====
section
/-! DEFINITION. What the host sees of a step and what it can do to the engine (spec/50_engine.md R90, R97 to R103). Each
operation is written once over a step function (the names that end in `In`), then taken at `stepAt` of given parameters
(the names that end in `At`) and at `step`, the spec's defaults. -/

namespace Sys2Proof.Machine

/-- The result a step returns (R90). -/
inductive StepResult where
  | continue
  | halted (cause : HaltCause)
  | faulted (f : EngineFault)
deriving DecidableEq, Repr

/-- The result that goes with a run state: `result_of(halt_cause)` of R93, and Continue while Running. -/
def resultOf : RunState → StepResult
  | .running => .continue
  | .halted (.fault f) => .faulted f
  | .halted .endOfBuffer => .halted .endOfBuffer
  | .halted .haltOp => .halted .haltOp
  | .halted .illegalOp => .halted .illegalOp

/-- A step together with the result it returns (R90, R93; spec/60_exceptions.md R113). -/
def resultIn (step : State → Outcome) (s : State) : Host.Outcome (State × StepResult) Fault Refusal :=
  match step s with
  | .next t => .next (t, resultOf t.run)
  | .fault f => .fault f
  | .refused r => .refused r

/-- `run` under fuel (R99, R100): steps repeated while the result is Continue; with the fuel used up the result is
still Continue. -/
def runIn (step : State → Outcome) : Nat → State → Host.Outcome (State × StepResult) Fault Refusal
  | 0, s => .next (s, .continue)
  | k + 1, s =>
    match resultIn step s with
    | .next (t, .continue) => runIn step k t
    | .next (t, r) => .next (t, r)
    | .fault f => .fault f
    | .refused r => .refused r

/-- A step with its result under given parameters. -/
def stepResultAt (p : Params) (s : State) : Host.Outcome (State × StepResult) Fault Refusal := resultIn (stepAt p) s

/-- `run` under given parameters. -/
def runForAt (p : Params) (k : Nat) (s : State) : Host.Outcome (State × StepResult) Fault Refusal :=
  runIn (stepAt p) k s

/-- A step with its result. -/
def stepResult (s : State) : Host.Outcome (State × StepResult) Fault Refusal := resultIn step s

/-- `run`. -/
def runFor (k : Nat) (s : State) : Host.Outcome (State × StepResult) Fault Refusal := runIn step k s

/-- What the host may read between steps: the registers, `pc`, `rem`, `eq`, `run_state` and `halt_cause` (R101), and the
buffer with LEN. R101 does not list the buffer; that it can be read too is DEDUCED (assumption log 25) from
spec/60_exceptions.md R124, spec/70_reset_and_hazards.md R134 and spec/45_termination.md R87. -/
structure HostView where
  regs : Vector Word 32
  pc : BitVec 32
  rem : Word
  eqFlag : Bool
  run : RunState
  buf : Memory
deriving DecidableEq, Repr

/-- What the host's reads give at a state (R101, R124). -/
def State.view (s : State) : HostView := ⟨s.regs, s.pc, s.rem, s.eqFlag, s.run, s.buf⟩

/-- The numeric code of a fault's kind (spec/60_exceptions.md R107; decision D13, assumption log 19). -/
def faultCode : EngineFault → Nat
  | .divideByZero => 1
  | .jumpOffsetOutOfRange _ => 2
  | .registerIndexOutOfRange _ => 3
  | .pcOutOfRange _ => 4
  | .arithmeticOverflow => 5

/-- The commands of the host, the complete list (R102; decisions D18 and D24, assumption log 16). -/
inductive Command where
  | reset
  | loadProgram (bytes : List Byte)
  | step
  | run
  /-- the reads of R101, as one command that answers with the whole view -/
  | read
deriving DecidableEq, Repr

/-- The engine and whether a `run` is in progress (R102; assumption log 16). -/
structure Session where
  engine : State
  runActive : Bool
deriving DecidableEq, Repr

/-- What the host gets back from a command. -/
inductive Reply where
  /-- the command took effect -/
  | done
  /-- the command was `step`, or a run has ended, with this result -/
  | result (r : StepResult)
  /-- a run has begun or goes on -/
  | running
  /-- the command was `read`, and this is what it found -/
  | view (v : HostView)
  /-- the command is not accepted: a run is in progress, or the program is longer than any LEN -/
  | notAccepted
deriving DecidableEq, Repr

/-- A command between two steps (R102). While a run is in progress only `reset` is accepted, and it ends the run.
DESIGN CHOICE (assumption log 26): a command that is not accepted is dropped with the reply `notAccepted`, and the host
issues it again; nothing keeps it waiting inside the machine. `run` of a halted engine returns at once with the stored
result (R99). DESIGN CHOICE (assumption log 27): `run` of a Running engine takes no step itself; the run's first step is the
next `Session.tickIn`, and a command can come before it.
DESIGN CHOICE (assumption log 28): a run that `reset` ends gives no result; the host gets the reset's own `done`. -/
def Session.commandIn (step : State → Outcome) (reset : State → State) (z : Session) (c : Command) :
    Host.Outcome (Session × Reply) Fault Refusal :=
  match c, z.runActive with
  | .reset, _ => .next (⟨reset z.engine, false⟩, .done)
  | .loadProgram bytes, false =>
    match Sys2Proof.Machine.loadProgram bytes z.engine with
    | some t => .next (⟨t, false⟩, .done)
    | none => .next (z, .notAccepted)
  | .step, false =>
    match resultIn step z.engine with
    | .next (t, r) => .next (⟨t, false⟩, .result r)
    | .fault f => .fault f
    | .refused r => .refused r
  | .run, false =>
    match z.engine.run with
    | .running => .next (⟨z.engine, true⟩, .running)
    | .halted c => .next (z, .result (resultOf (.halted c)))
  | .read, false => .next (z, .view z.engine.view)
  | .loadProgram _, true => .next (z, .notAccepted)
  | .step, true => .next (z, .notAccepted)
  | .run, true => .next (z, .notAccepted)
  | .read, true => .next (z, .notAccepted)

/-- One step of the run in progress (R99): it ends with the first result that is not Continue. With no run in progress
there is no step to take. -/
def Session.tickIn (step : State → Outcome) (z : Session) : Host.Outcome (Session × Reply) Fault Refusal :=
  match z.runActive with
  | false => .next (z, .notAccepted)
  | true =>
    match resultIn step z.engine with
    | .next (t, .continue) => .next (⟨t, true⟩, .running)
    | .next (t, r) => .next (⟨t, false⟩, .result r)
    | .fault f => .fault f
    | .refused r => .refused r

/-- A command under given parameters. -/
def Session.commandAt (p : Params) (z : Session) (c : Command) : Host.Outcome (Session × Reply) Fault Refusal :=
  z.commandIn (stepAt p) (hostResetWith p.remReset p.eqReset) c

/-- One step of the run in progress under given parameters. -/
def Session.tickAt (p : Params) (z : Session) : Host.Outcome (Session × Reply) Fault Refusal := z.tickIn (stepAt p)

/-- A command. -/
def Session.command (z : Session) (c : Command) : Host.Outcome (Session × Reply) Fault Refusal :=
  z.commandIn step hostReset c

/-- One step of the run in progress. -/
def Session.tick (z : Session) : Host.Outcome (Session × Reply) Fault Refusal := z.tickIn step

end Sys2Proof.Machine
end

