-- ==== Sys2Proof/Safety.lean ====
section
/-! DEFINITION. What counts as a legal state, a safe run and the end of a run
(spec/50_engine.md R106, spec/60_exceptions.md R116, spec/70_reset_and_hazards.md R134). -/

namespace Sys2Proof.Machine

/-- The invariant between steps: the buffer is in canonical form and `pc` lies in `[0, LEN]`
(spec/10_state.md R13, spec/50_engine.md R106). -/
abbrev State.wf (s : State) : Prop := s.buf.wf ∧ s.pc.toNat ≤ s.len

/-- "No fault": the halt cause, if there is one, is not a fault (spec/60_exceptions.md R116). -/
def State.noFault (s : State) : Bool :=
  match s.run with
  | .halted (.fault _) => false
  | .running | .halted .endOfBuffer | .halted .haltOp | .halted .illegalOp => true

/-- The run is over and ended normally (spec/70_reset_and_hazards.md R134). -/
def State.endedNormally (s : State) : Bool := s.run != .running && s.noFault

/-- The bytes that stand in the buffer at consecutive offsets from `a`. -/
abbrev State.bytesAt (s : State) (a : Nat) (bs : List Byte) : Prop :=
  ∀ k (h : k < bs.length), s.buf.byteAt (a + k) = some bs[k]

/-- `k` steps, each answering a next state. -/
def StepsIn (step : State → Outcome) : Nat → State → State → Prop
  | 0, s, t => s = t
  | k + 1, s, t => ∃ u, step s = .next u ∧ StepsIn step k u t

/-- `k` steps, each returning Continue (spec/50_engine.md R97, R99). -/
def ContinuesIn (step : State → Outcome) : Nat → State → State → Prop
  | 0, s, t => s = t
  | k + 1, s, t => ∃ u, resultIn step s = .next (u, .continue) ∧ ContinuesIn step k u t

/-- A state the host and the program can bring about from power-on: the two host writes and steps
(spec/50_engine.md R102). -/
inductive ReachableIn (step : State → Outcome) (reset : State → State) (powerOn : State) : State → Prop where
  | powerOn : ReachableIn step reset powerOn powerOn
  | reset (s : State) : ReachableIn step reset powerOn s → ReachableIn step reset powerOn (reset s)
  | loadProgram (s t : State) (bytes : List Byte) : ReachableIn step reset powerOn s →
      Sys2Proof.Machine.loadProgram bytes s = some t → ReachableIn step reset powerOn t
  | step (s t : State) : ReachableIn step reset powerOn s → step s = .next t → ReachableIn step reset powerOn t

/-- Steps, continued steps and reachable states under given parameters. -/
abbrev StepsAt (p : Params) : Nat → State → State → Prop := StepsIn (stepAt p)

@[inherit_doc StepsAt] abbrev ContinuesAt (p : Params) : Nat → State → State → Prop := ContinuesIn (stepAt p)

@[inherit_doc StepsAt] abbrev ReachableAt (p : Params) : State → Prop :=
  ReachableIn (stepAt p) (hostResetWith p.remReset p.eqReset) (resetAt p)

/-- Steps, continued steps and reachable states at the spec's defaults. -/
abbrev Steps : Nat → State → State → Prop := StepsIn step

@[inherit_doc Steps] abbrev Continues : Nat → State → State → Prop := ContinuesIn step

@[inherit_doc Steps] abbrev Reachable : State → Prop := ReachableIn step hostReset State.reset

end Sys2Proof.Machine
end

