-- ==== Sys2Proof/Certificates/Slice0/Obligations.lean ====
section
/-! DEFINITION. The statements for the provers. A fault of the engine is a next state
(spec/60_exceptions.md R113), so a statement that says "faults" has an equation to a next state as its conclusion.
States are written out as updates of the state before, so each such equation is the instruction's frame too: a field
that is not named is unchanged, and all of memory with it. -/

open Sys2Proof Sys2Proof.Machine

/-! ### Encoding -/

/-- Under every OPMAP, decoding the bytes of a well-formed instruction, whatever follows them, gives it back. -/
def Obligations.DecodeInvertsEncode : Prop :=
  ∀ (t : OpTable) (i : Instr) (rest : List Byte), t.valid → i.wellFormed = true →
    decodeAt t (encodeAt t i ++ rest) = .ok (i, rest)

/-- The opcode byte alone fixes how many bytes are consumed, and encoding the instruction that was read gives those
bytes back. One spelling for each instruction holds because an instruction of the syntax carries its pad byte and the
byte of an Illegal, the model's choice (DESIGN CHOICE, log 14): the pad changes nothing, so a comparison has 256
spellings in the spec's terms. -/
def Obligations.EncodeInvertsDecode : Prop :=
  ∀ (t : OpTable) (b0 : Byte) (bs : List Byte) (i : Instr) (rest : List Byte), t.valid →
    decodeAt t (b0 :: bs) = .ok (i, rest) →
      encodeAt t i ++ rest = b0 :: bs ∧ i.wellFormed = true ∧ i.op = opMap t b0 ∧
      rest.length + (opMap t b0).ilen = (b0 :: bs).length

/-- The decoder turns bytes away only for bytes that are missing, and says which. -/
def Obligations.DecodeRejectsOnlyMissingBytes : Prop :=
  ∀ (t : OpTable) (bs : List Byte) (e : DecodeError),
    decodeAt t bs = .error e ↔
      (bs = [] ∧ e = .noOpcode) ∨
      ∃ b0 tl, bs = b0 :: tl ∧ bs.length < (opMap t b0).ilen ∧ e = .truncated (opMap t b0).ilen

/-- R51: each of the 240 bytes 16 to 255 decodes to Illegal, which is one byte long and is no decode error; executing
it halts the engine normally, no fault, with no register touched, and alike for all of them. -/
def Obligations.UnmappedBytesExecuteAsIllegal : Prop :=
  ∀ (t : OpTable) (b : Byte) (rest : List Byte), t.valid → 16 ≤ b.toNat →
    opMap t b = .illegal ∧ (opMap t b).ilen = 1 ∧ decodeAt t (b :: rest) = .ok (.illegal b, rest) ∧
    ∀ s : State, ∃ u, exec (.illegal b) s = .next u ∧ u.run = .halted .illegalOp ∧ u.noFault = true ∧
      u.regs = s.regs ∧ u.eqFlag = s.eqFlag ∧ u.rem = s.rem ∧ u.buf = s.buf ∧
      ∀ c : Byte, 16 ≤ c.toNat → exec (.illegal c) s = .next u

/-- OPMAP is total; the bytes 0 to 15 map one to one onto the sixteen defined operations, every other byte to Illegal;
the opcode byte alone selects the operation; there are 17 operations. One to one is what the spec itself derives
(R49), for any OPMAP (its decision D1, log 1). -/
def Obligations.OpcodeMapIsTotalAndOneToOne : Prop :=
  ∀ t : OpTable, t.valid →
    (∀ b : Byte, opMap t b = .illegal ↔ 16 ≤ b.toNat) ∧
    (∀ op : Opcode, op ≠ .illegal → ∃ b : Byte, b.toNat < 16 ∧ opMap t b = op ∧ ∀ c : Byte, opMap t c = op → c = b) ∧
    (∀ (b0 : Byte) (bs rest : List Byte) (i : Instr), decodeAt t (b0 :: bs) = .ok (i, rest) → i.op = opMap t b0) ∧
    definedOps.length = 16 ∧ ∀ op : Opcode, op = .illegal ∨ op ∈ definedOps

/-- Words of the spec's own encoding tables, one for each family, under the default OPMAP (the numbering is the spec's
decision D1, log 1). -/
def Obligations.SpecWordsDecode : Prop :=
  decode [0x00#8, 0x03#8, 0x01#8, 0xF4#8] = .ok (.load 3#8 500#16, []) ∧
  decode [0x04#8, 0x00#8, 0x01#8, 0x05#8] = .ok (.div 0#8 1#8 5#8, []) ∧
  decode [0x06#8, 0x03#8, 0xFF#8] = .ok (.jmpf 3#8, [0xFF#8]) ∧
  decode [0x0C#8, 0x02#8, 0x01#8, 0x00#8] = .ok (.lt 2#8 1#8 0#8, []) ∧
  decode [0x0E#8, 0x04#8] = .ok (.jmpe 4#8, []) ∧
  decode [0x0F#8] = .ok (.halt, []) ∧
  decode [0xFE#8] = .ok (.illegal 254#8, [])

/-- An instruction placed by `withFetchWord` is what the next step runs, and nothing but the buffer, the run state and
(near the top of the address space, log 20) `pc` is changed to place it. -/
def Obligations.PlacedTableWordRuns : Prop :=
  ∀ (s : State) (nbits w : Nat) (i : Instr), s.buf.wf → decodeTableWord nbits w = some i →
    step (s.withFetchWord nbits w) = exec i (s.withFetchWord nbits w) ∧
    (s.withFetchWord nbits w).regs = s.regs ∧ (s.withFetchWord nbits w).eqFlag = s.eqFlag ∧
    (s.withFetchWord nbits w).rem = s.rem ∧ (s.withFetchWord nbits w).notices = s.notices ∧
    (s.pc.toNat + 4 < 2 ^ 32 → (s.withFetchWord nbits w).pc = s.pc)

/-! ### The step -/

/-- When the bytes at `pc` decode to an instruction, a step of a running engine is `exec` of that instruction at that
state: nothing is added around it. -/
def Obligations.StepRunsTheDecodedInstruction : Prop :=
  ∀ (s : State) (bs : List Byte) (i : Instr), s.run = .running → s.bytesAt s.pc.toNat bs →
    decode bs = .ok (i, []) → step s = exec i s

/-- At or past LEN a running engine halts with cause EndOfBuffer, reads nothing and changes nothing else. The cause
and the silence are the spec's decision D19 (log 21). -/
def Obligations.StepHaltsAtTheEndOfTheBuffer : Prop :=
  ∀ (p : Params) (s : State), s.run = .running → s.len ≤ s.pc.toNat →
    stepAt p s = .next { s with run := .halted .endOfBuffer } ∧
    stepResultAt p s = .next ({ s with run := .halted .endOfBuffer }, .halted .endOfBuffer) ∧
    stepResult s = .next ({ s with run := .halted .endOfBuffer }, .halted .endOfBuffer)

/-- An instruction cut short by the end of the buffer faults before anything else is looked at (the spec's decisions
D9 and D8, log 8), and `pc` stays (its D7, log 7). -/
def Obligations.StepFaultsOnATruncatedInstruction : Prop :=
  ∀ (p : Params) (s : State) (b0 : Byte), s.run = .running → s.buf.byteAt s.pc.toNat = some b0 →
    s.len < s.pc.toNat + (opMap p.opTable b0).ilen →
      stepAt p s =
        .next { s with run := .halted (.fault (.pcOutOfRange (s.pc.toNat + (opMap p.opTable b0).ilen))) }

/-- A halted engine answers every step and every run with itself and the stored result (the spec's decision D14, log
9). -/
def Obligations.HaltedEngineStepsToItself : Prop :=
  ∀ (p : Params) (s : State) (c : HaltCause), s.run = .halted c →
    stepAt p s = .next s ∧ stepResultAt p s = .next (s, resultOf (.halted c)) ∧
    stepResult s = .next (s, resultOf (.halted c)) ∧
    (∀ k t, (StepsAt p k s t ↔ t = s) ∧ (Steps k s t ↔ t = s)) ∧
    ∀ k, runForAt p (k + 1) s = .next (s, resultOf (.halted c)) ∧ runFor (k + 1) s = .next (s, resultOf (.halted c))

/-- The step is total: in every state, under every parameter, it answers a next state. No read ever falls outside the
buffer and no fetched instruction is undecodable. That a fault of the engine is a next state, and the model's own
fault and refusal are never answered, is DEDUCED (log 11). The result it returns, under every parameter too, is
Continue when it leaves the engine Running, Halted with the cause when Halt, Illegal or the end of the buffer stopped
it, and Faulted with the fault when one did (spec/50_engine.md R90, R93). -/
def Obligations.EveryStepAnswersANextState : Prop :=
  (∀ (p : Params) (s : State), ∃ t, stepAt p s = .next t ∧ stepResultAt p s = .next (t, resultOf t.run)) ∧
  (∀ s : State, ∃ t, step s = .next t ∧ stepResult s = .next (t, resultOf t.run)) ∧
  resultOf .running = .continue ∧ resultOf (.halted .haltOp) = .halted .haltOp ∧
  resultOf (.halted .illegalOp) = .halted .illegalOp ∧ resultOf (.halted .endOfBuffer) = .halted .endOfBuffer ∧
  ∀ f, resultOf (.halted (.fault f)) = .faulted f

/-- Every step keeps the buffer canonical and `pc` inside `[0, LEN]`. -/
def Obligations.StepKeepsWellFormedStates : Prop :=
  ∀ (p : Params) (s t : State), s.wf → (step s = .next t ∨ stepAt p s = .next t) → t.wf

/-- Reset is well formed, and both host writes give well-formed states from any state. -/
def Obligations.ResetAndLoadAreWellFormed : Prop :=
  State.reset.wf ∧ (∀ p : Params, (resetAt p).wf) ∧ (∀ s : State, (hostReset s).wf) ∧
  (∀ (p : Params) (s : State), (hostResetWith p.remReset p.eqReset s).wf) ∧
  ∀ (bytes : List Byte) (s t : State), loadProgram bytes s = some t → t.wf

/-- Every state that power-on, host commands and steps can bring about is well formed. -/
def Obligations.ReachableStatesAreWellFormed : Prop :=
  (∀ s : State, Reachable s → s.wf) ∧ ∀ (p : Params) (s : State), ReachableAt p s → s.wf

/-- R24: a step leaves the buffer as it is, and what it does depends on no byte of the buffer but those of the
instruction at `pc`. -/
def Obligations.StepNeverStoresAndReadsOnlyItsOwnBytes : Prop :=
  ∀ (p : Params) (s t : State), stepAt p s = .next t →
    t.buf = s.buf ∧
    ∀ m : Memory, m.len = s.buf.len →
      (∀ b0, s.buf.byteAt s.pc.toNat = some b0 → ∀ k, k < (opMap p.opTable b0).ilen →
        m.byteAt (s.pc.toNat + k) = s.buf.byteAt (s.pc.toNat + k)) →
      stepAt p { s with buf := m } = .next { t with buf := m }

/-- Renumbering the opcodes changes no behaviour: the same instruction, encoded under another OPMAP in another buffer
of the same length, steps the engine the same way. -/
def Obligations.StepDoesNotDependOnTheNumbering : Prop :=
  ∀ (p : Params) (t2 : OpTable) (s u : State) (m2 : Memory) (i : Instr),
    p.opTable.valid → t2.valid → i.wellFormed = true →
    s.bytesAt s.pc.toNat (encodeAt p.opTable i) → m2.len = s.buf.len →
    ({ s with buf := m2 } : State).bytesAt s.pc.toNat (encodeAt t2 i) →
    stepAt p s = .next u →
      stepAt { p with opTable := t2 } { s with buf := m2 } = .next { u with buf := m2 }

/-! ### Each instruction's rule, as a step from its bytes, under every OPMAP and every ARITH_OVERFLOW -/

/-- Load (R60), with each of its faults and its result. Two clauses are the spec's own decisions: `pc` stays where it
is on a fault (D7, log 7), and missing operand bytes raise PcOutOfRange before an index is looked at (D9 and D8, log
8). -/
def Obligations.LoadStepFollowsItsRule : Prop :=
  opMap opTable 0x00#8 = .load ∧
  ∀ (p : Params) (s : State) (b0 : Byte), s.run = .running → s.buf.byteAt s.pc.toNat = some b0 →
    opMap p.opTable b0 = .load →
    (s.len < s.pc.toNat + 4 →
      stepAt p s = .next { s with run := .halted (.fault (.pcOutOfRange (s.pc.toNat + 4))) }) ∧
    ∀ rd b2 b3 : Byte, s.bytesAt s.pc.toNat [b0, rd, b2, b3] →
      (32 ≤ rd.toNat → stepAt p s = .next { s with run := .halted (.fault (.registerIndexOutOfRange rd)) }) ∧
      ∀ h : rd.toNat < 32, stepAt p s =
        .next { s with regs := s.regs.set rd.toNat (BitVec.ofNat 32 (b2.toNat * 256 + b3.toNat)) h,
                       pc := s.pc + 4#32 }

/-- Add, Sub and Mul (R62 to R65) on the exact signed result, for both values of ARITH_OVERFLOW. What overflow does is
the spec's decision D3 (log 2), that `pc` stays on a fault its D7 (log 7), missing operand bytes and the order of bad
indices its D9 and D8 (log 8). -/
def Obligations.AddSubMulStepsFollowTheirRules : Prop :=
  opMap opTable 0x01#8 = .add ∧ opMap opTable 0x02#8 = .sub ∧ opMap opTable 0x03#8 = .mul ∧
  ∀ c ∈ ([(.add, fun a b => a + b), (.sub, fun a b => a - b), (.mul, fun a b => a * b)] :
      List (Opcode × (Int → Int → Int))),
  ∀ (p : Params) (s : State) (b0 : Byte), s.run = .running → s.buf.byteAt s.pc.toNat = some b0 →
    opMap p.opTable b0 = c.1 →
    (s.len < s.pc.toNat + 4 →
      stepAt p s = .next { s with run := .halted (.fault (.pcOutOfRange (s.pc.toNat + 4))) }) ∧
    ∀ rs1 rs2 rd : Byte, s.bytesAt s.pc.toNat [b0, rs1, rs2, rd] →
      (∀ v, [rs1, rs2, rd].find? (fun b => decide (32 ≤ b.toNat)) = some v →
        stepAt p s = .next { s with run := .halted (.fault (.registerIndexOutOfRange v)) }) ∧
      ∀ (h1 : rs1.toNat < 32) (h2 : rs2.toNat < 32) (h : rd.toNat < 32) (e : Int),
        e = c.2 s.regs[rs1.toNat].toInt s.regs[rs2.toNat].toInt →
        (((-2 ^ 31 ≤ e ∧ e ≤ 2 ^ 31 - 1) ∨ p.overflow = .wrap) →
          stepAt p s = .next { s with regs := s.regs.set rd.toNat (BitVec.ofInt 32 e) h, pc := s.pc + 4#32 }) ∧
        (¬ (-2 ^ 31 ≤ e ∧ e ≤ 2 ^ 31 - 1) → p.overflow = .fault →
          stepAt p s = .next { s with run := .halted (.fault .arithmeticOverflow) })

/-- Div, for both values of ARITH_OVERFLOW. That the remainder has the dividend's sign, that -2^31 / -1 follows the
parameter and that a fault leaves `rem` and `pc` alone are the spec's decisions D5, D4 and D7 (logs 12, 2, 7), missing
operand bytes and the order of bad indices its D9 and D8 (log 8). -/
def Obligations.DivStepFollowsItsRule : Prop :=
  opMap opTable 0x04#8 = .div ∧
  ∀ (p : Params) (s : State) (b0 : Byte), s.run = .running → s.buf.byteAt s.pc.toNat = some b0 →
    opMap p.opTable b0 = .div →
    (s.len < s.pc.toNat + 4 →
      stepAt p s = .next { s with run := .halted (.fault (.pcOutOfRange (s.pc.toNat + 4))) }) ∧
    ∀ rs1 rs2 rd : Byte, s.bytesAt s.pc.toNat [b0, rs1, rs2, rd] →
      (∀ v, [rs1, rs2, rd].find? (fun b => decide (32 ≤ b.toNat)) = some v →
        stepAt p s = .next { s with run := .halted (.fault (.registerIndexOutOfRange v)) }) ∧
      ∀ (h1 : rs1.toNat < 32) (h2 : rs2.toNat < 32) (h : rd.toNat < 32) (a b q : Int),
        a = s.regs[rs1.toNat].toInt → b = s.regs[rs2.toNat].toInt → q = a.tdiv b →
        (b = 0 → stepAt p s = .next { s with run := .halted (.fault .divideByZero) }) ∧
        (b ≠ 0 → (q ≠ 2 ^ 31 ∨ p.overflow = .wrap) →
          stepAt p s = .next { s with regs := s.regs.set rd.toNat (BitVec.ofInt 32 q) h,
                                      rem := BitVec.ofInt 32 (a - q * b), pc := s.pc + 4#32 }) ∧
        (b ≠ 0 → q = 2 ^ 31 → p.overflow = .fault →
          stepAt p s = .next { s with run := .halted (.fault .arithmeticOverflow) })

/-- Jmp (R70, R71), with each of its faults and its result. That `pc` stays on a fault is the spec's decision D7 (log
7), missing operand bytes and their priority its D9 and D8 (log 8). -/
def Obligations.JmpStepFollowsItsRule : Prop :=
  opMap opTable 0x05#8 = .jmp ∧
  ∀ (p : Params) (s : State) (b0 : Byte), s.run = .running → s.buf.byteAt s.pc.toNat = some b0 →
    opMap p.opTable b0 = .jmp →
    (s.len < s.pc.toNat + 2 →
      stepAt p s = .next { s with run := .halted (.fault (.pcOutOfRange (s.pc.toNat + 2))) }) ∧
    ∀ rt : Byte, s.bytesAt s.pc.toNat [b0, rt] →
      (32 ≤ rt.toNat → stepAt p s = .next { s with run := .halted (.fault (.registerIndexOutOfRange rt)) }) ∧
      ∀ h : rt.toNat < 32,
        (s.len < s.regs[rt.toNat].toNat →
          stepAt p s = .next { s with run := .halted (.fault (.pcOutOfRange s.regs[rt.toNat].toNat)) }) ∧
        (s.regs[rt.toNat].toNat ≤ s.len → stepAt p s = .next { s with pc := s.regs[rt.toNat] })

/-- Jmpf (R70, R72). Which fault a sum of 2^32 or more raises is the spec's decision D11 (log 8), that `pc` stays on a
fault its D7 (log 7), missing operand bytes and their priority its D9 and D8 (log 8). -/
def Obligations.JmpfStepFollowsItsRule : Prop :=
  opMap opTable 0x06#8 = .jmpf ∧
  ∀ (p : Params) (s : State) (b0 : Byte), s.run = .running → s.buf.byteAt s.pc.toNat = some b0 →
    opMap p.opTable b0 = .jmpf →
    (s.len < s.pc.toNat + 2 →
      stepAt p s = .next { s with run := .halted (.fault (.pcOutOfRange (s.pc.toNat + 2))) }) ∧
    ∀ rt : Byte, s.bytesAt s.pc.toNat [b0, rt] →
      (32 ≤ rt.toNat → stepAt p s = .next { s with run := .halted (.fault (.registerIndexOutOfRange rt)) }) ∧
      ∀ (h : rt.toNat < 32) (t : Nat), t = s.pc.toNat + 2 + s.regs[rt.toNat].toNat →
        (2 ^ 32 ≤ t → stepAt p s = .next { s with run := .halted (.fault (.jumpOffsetOutOfRange .overflow)) }) ∧
        (t < 2 ^ 32 → s.len < t → stepAt p s = .next { s with run := .halted (.fault (.pcOutOfRange t)) }) ∧
        (t ≤ s.len → stepAt p s = .next { s with pc := s.pc + 2#32 + s.regs[rt.toNat] })

/-- Jmpb (R70, R73), with each of its faults and its result, which never leaves the buffer. That `pc` stays on a fault
is the spec's decision D7 (log 7), missing operand bytes and their priority its D9 and D8 (log 8). -/
def Obligations.JmpbStepFollowsItsRule : Prop :=
  opMap opTable 0x07#8 = .jmpb ∧
  ∀ (p : Params) (s : State) (b0 : Byte), s.run = .running → s.buf.byteAt s.pc.toNat = some b0 →
    opMap p.opTable b0 = .jmpb →
    (s.len < s.pc.toNat + 2 →
      stepAt p s = .next { s with run := .halted (.fault (.pcOutOfRange (s.pc.toNat + 2))) }) ∧
    ∀ rt : Byte, s.bytesAt s.pc.toNat [b0, rt] →
      (32 ≤ rt.toNat → stepAt p s = .next { s with run := .halted (.fault (.registerIndexOutOfRange rt)) }) ∧
      ∀ h : rt.toNat < 32,
        (s.pc.toNat + 2 < s.regs[rt.toNat].toNat →
          stepAt p s = .next { s with run := .halted (.fault (.jumpOffsetOutOfRange .underflow)) }) ∧
        (s.regs[rt.toNat].toNat ≤ s.pc.toNat + 2 →
          stepAt p s = .next { s with pc := s.pc + 2#32 - s.regs[rt.toNat] } ∧
          (s.pc + 2#32 - s.regs[rt.toNat]).toNat ≤ s.len)

/-- The six comparisons (R76 to R82), each the truth of its relation between the signed values; the pad byte may hold
anything. That `pc` stays on a fault is the spec's decision D7 (log 7), missing operand bytes and the order of bad
indices its D9 and D8 (log 8). -/
def Obligations.ComparisonStepsFollowTheirRules : Prop :=
  opMap opTable 0x08#8 = .eq ∧ opMap opTable 0x09#8 = .neq ∧ opMap opTable 0x0A#8 = .gte ∧
  opMap opTable 0x0B#8 = .lte ∧ opMap opTable 0x0C#8 = .lt ∧ opMap opTable 0x0D#8 = .gt ∧
  ∀ c ∈ ([(.eq, fun a b => decide (a = b)), (.neq, fun a b => decide (a ≠ b)), (.gte, fun a b => decide (a ≥ b)),
      (.lte, fun a b => decide (a ≤ b)), (.lt, fun a b => decide (a < b)), (.gt, fun a b => decide (a > b))] :
      List (Opcode × (Int → Int → Bool))),
  ∀ (p : Params) (s : State) (b0 : Byte), s.run = .running → s.buf.byteAt s.pc.toNat = some b0 →
    opMap p.opTable b0 = c.1 →
    (s.len < s.pc.toNat + 4 →
      stepAt p s = .next { s with run := .halted (.fault (.pcOutOfRange (s.pc.toNat + 4))) }) ∧
    ∀ r1 r2 pad : Byte, s.bytesAt s.pc.toNat [b0, r1, r2, pad] →
      (∀ v, [r1, r2].find? (fun b => decide (32 ≤ b.toNat)) = some v →
        stepAt p s = .next { s with run := .halted (.fault (.registerIndexOutOfRange v)) }) ∧
      ∀ (h1 : r1.toNat < 32) (h2 : r2.toNat < 32),
        stepAt p s = .next { s with eqFlag := c.2 s.regs[r1.toNat].toInt s.regs[r2.toNat].toInt, pc := s.pc + 4#32 }

/-- Jmpe, taken and not taken. That the index byte is checked when the jump is not taken is the spec's decision D10
(log 8), that `pc` stays on a fault its D7 (log 7), missing operand bytes and their priority its D9 and D8 (log 8). -/
def Obligations.JmpeStepFollowsItsRule : Prop :=
  opMap opTable 0x0E#8 = .jmpe ∧
  ∀ (p : Params) (s : State) (b0 : Byte), s.run = .running → s.buf.byteAt s.pc.toNat = some b0 →
    opMap p.opTable b0 = .jmpe →
    (s.len < s.pc.toNat + 2 →
      stepAt p s = .next { s with run := .halted (.fault (.pcOutOfRange (s.pc.toNat + 2))) }) ∧
    ∀ rt : Byte, s.bytesAt s.pc.toNat [b0, rt] →
      (32 ≤ rt.toNat → stepAt p s = .next { s with run := .halted (.fault (.registerIndexOutOfRange rt)) }) ∧
      ∀ h : rt.toNat < 32,
        (s.eqFlag = true → s.len < s.regs[rt.toNat].toNat →
          stepAt p s = .next { s with run := .halted (.fault (.pcOutOfRange s.regs[rt.toNat].toNat)) }) ∧
        (s.eqFlag = true → s.regs[rt.toNat].toNat ≤ s.len → stepAt p s = .next { s with pc := s.regs[rt.toNat] }) ∧
        (s.eqFlag = false → stepAt p s = .next { s with pc := s.pc + 2#32 })

/-- Halt and Illegal halt normally with their causes and their notices, `pc` after their byte, and the step returns
Halted(HaltOp) and Halted(IllegalOp) (the notice as an event of an output stream is the spec's decision D17, log 10).
-/
def Obligations.HaltAndIllegalStepsFollowTheirRules : Prop :=
  opMap opTable 0x0F#8 = .halt ∧
  (∀ (s : State) (b0 : Byte), s.run = .running → s.buf.byteAt s.pc.toNat = some b0 →
    (opMap opTable b0 = .halt → ∃ t, step s = .next t ∧ stepResult s = .next (t, .halted .haltOp)) ∧
    (opMap opTable b0 = .illegal → ∃ t, step s = .next t ∧ stepResult s = .next (t, .halted .illegalOp))) ∧
  ∀ (p : Params) (s t : State) (b0 : Byte), s.run = .running → s.buf.byteAt s.pc.toNat = some b0 →
    (opMap p.opTable b0 = .halt →
      t = { s with pc := s.pc + 1#32, run := .halted .haltOp, notices := s.notices ++ [.haltNotice] } →
      stepAt p s = .next t ∧ stepResultAt p s = .next (t, .halted .haltOp)) ∧
    (opMap p.opTable b0 = .illegal →
      t = { s with pc := s.pc + 1#32, run := .halted .illegalOp, notices := s.notices ++ [.illegalNotice] } →
      stepAt p s = .next t ∧ stepResultAt p s = .next (t, .halted .illegalOp))

/-! ### Each instruction completes, with its result and its frame -/

/-- Load completes in every state, for every immediate and each of the 32 registers, and the value written is the
immediate read unsigned. -/
def Obligations.LoadCompletes : Prop :=
  ∀ (s : State) (rd : Byte) (imm : Half) (h : rd.toNat < 32),
    exec (.load rd imm) s =
      .next { s with regs := s.regs.set rd.toNat (imm.setWidth 32) h, pc := s.pc + 4#32 } ∧
    (imm.setWidth 32 : Word).toInt = imm.toNat

/-- Add, Sub and Mul complete on all values, with the low 32 bits of the exact result (wrap-around is the default of
ARITH_OVERFLOW, the spec's decision D3, log 2). -/
def Obligations.AddSubMulComplete : Prop :=
  ∀ (s : State) (rs1 rs2 rd : Byte) (h1 : rs1.toNat < 32) (h2 : rs2.toNat < 32) (h : rd.toNat < 32),
    exec (.add rs1 rs2 rd) s = .next { s with
      regs := s.regs.set rd.toNat (BitVec.ofInt 32 (s.regs[rs1.toNat].toInt + s.regs[rs2.toNat].toInt)) h,
      pc := s.pc + 4#32 } ∧
    exec (.sub rs1 rs2 rd) s = .next { s with
      regs := s.regs.set rd.toNat (BitVec.ofInt 32 (s.regs[rs1.toNat].toInt - s.regs[rs2.toNat].toInt)) h,
      pc := s.pc + 4#32 } ∧
    exec (.mul rs1 rs2 rd) s = .next { s with
      regs := s.regs.set rd.toNat (BitVec.ofInt 32 (s.regs[rs1.toNat].toInt * s.regs[rs2.toNat].toInt)) h,
      pc := s.pc + 4#32 }

/-- Div completes for every nonzero divisor; no other state changes (for -2^31 / -1 by the default of ARITH_OVERFLOW,
the spec's decision D4, log 2; the remainder's sign is its decision D5, log 12). -/
def Obligations.DivCompletes : Prop :=
  ∀ (s : State) (rs1 rs2 rd : Byte) (h1 : rs1.toNat < 32) (h2 : rs2.toNat < 32) (h : rd.toNat < 32),
    s.regs[rs2.toNat] ≠ 0#32 →
    exec (.div rs1 rs2 rd) s = .next { s with
      regs := s.regs.set rd.toNat (BitVec.ofInt 32 (s.regs[rs1.toNat].toInt.tdiv s.regs[rs2.toNat].toInt)) h,
      rem := BitVec.ofInt 32 (s.regs[rs1.toNat].toInt.tmod s.regs[rs2.toNat].toInt),
      pc := s.pc + 4#32 }

/-- Jmp, Jmpf and Jmpb complete for every target inside the buffer, LEN itself included. -/
def Obligations.JumpsComplete : Prop :=
  ∀ (s : State) (rt : Byte) (h : rt.toNat < 32),
    (s.regs[rt.toNat].toNat ≤ s.len → exec (.jmp rt) s = .next { s with pc := s.regs[rt.toNat] }) ∧
    (s.pc.toNat + 2 + s.regs[rt.toNat].toNat ≤ s.len →
      exec (.jmpf rt) s = .next { s with pc := s.pc + 2#32 + s.regs[rt.toNat] }) ∧
    (s.regs[rt.toNat].toNat ≤ s.pc.toNat + 2 →
      exec (.jmpb rt) s = .next { s with pc := s.pc + 2#32 - s.regs[rt.toNat] })

/-- Jmpe completes when it is taken to a target inside the buffer and, whatever the register holds, when it is not
taken; the flag stays as it is. -/
def Obligations.JmpeCompletes : Prop :=
  ∀ (s : State) (rt : Byte) (h : rt.toNat < 32),
    (s.eqFlag = true → s.regs[rt.toNat].toNat ≤ s.len → exec (.jmpe rt) s = .next { s with pc := s.regs[rt.toNat] }) ∧
    (s.eqFlag = false → exec (.jmpe rt) s = .next { s with pc := s.pc + 2#32 })

/-- The six comparisons complete in every state; only the flag and `pc` change. -/
def Obligations.ComparisonsComplete : Prop :=
  ∀ (s : State) (r1 r2 pad : Byte) (h1 : r1.toNat < 32) (h2 : r2.toNat < 32) (a b : Int),
    a = s.regs[r1.toNat].toInt → b = s.regs[r2.toNat].toInt →
    exec (.eq r1 r2 pad) s = .next { s with eqFlag := decide (a = b), pc := s.pc + 4#32 } ∧
    exec (.neq r1 r2 pad) s = .next { s with eqFlag := decide (a ≠ b), pc := s.pc + 4#32 } ∧
    exec (.gte r1 r2 pad) s = .next { s with eqFlag := decide (a ≥ b), pc := s.pc + 4#32 } ∧
    exec (.lte r1 r2 pad) s = .next { s with eqFlag := decide (a ≤ b), pc := s.pc + 4#32 } ∧
    exec (.lt r1 r2 pad) s = .next { s with eqFlag := decide (a < b), pc := s.pc + 4#32 } ∧
    exec (.gt r1 r2 pad) s = .next { s with eqFlag := decide (a > b), pc := s.pc + 4#32 }

/-- Halt and Illegal complete in every state: halting is their effect, and no register, flag or byte changes. -/
def Obligations.HaltAndIllegalComplete : Prop :=
  ∀ (s : State) (code : Byte),
    exec .halt s =
      .next { s with pc := s.pc + 1#32, run := .halted .haltOp, notices := s.notices ++ [.haltNotice] } ∧
    exec (.illegal code) s =
      .next { s with pc := s.pc + 1#32, run := .halted .illegalOp, notices := s.notices ++ [.illegalNotice] }

/-! ### What holds across instructions -/

/-- The frame of every instruction, whatever it answers: no byte of the buffer changes; only the destination of a Load
or an arithmetic instruction changes among the registers; only a comparison writes the flag, only a Div `rem`; only
Halt and Illegal emit a notice; the run state changes only by halting or faulting. -/
def Obligations.InstructionFrame : Prop :=
  ∀ (i : Instr) (s t : State), (exec i s = .next t ∨ ∃ m, execAt m i s = .next t) →
    (∀ a, t.buf.byteAt a = s.buf.byteAt a) ∧ t.buf.len = s.buf.len ∧
    (i.op ∉ [.load, .add, .sub, .mul, .div] → t.regs = s.regs) ∧
    (∀ rd imm, i = .load rd imm → ∀ n (h : n < 32), n ≠ rd.toNat → t.regs[n] = s.regs[n]) ∧
    (∀ rs1 rs2 rd, i ∈ [.add rs1 rs2 rd, .sub rs1 rs2 rd, .mul rs1 rs2 rd, .div rs1 rs2 rd] →
      ∀ n (h : n < 32), n ≠ rd.toNat → t.regs[n] = s.regs[n]) ∧
    (i.op ∉ [.eq, .neq, .gte, .lte, .lt, .gt] → t.eqFlag = s.eqFlag) ∧
    (i.op ≠ .div → t.rem = s.rem) ∧
    (i.op ∉ [.halt, .illegal] →
      t.notices = s.notices ∧ (t.run = s.run ∨ ∃ f, t.run = .halted (.fault f)))

/-- No register is hardwired (R11) and none aliases another (R10). Every 32-bit value written to a register is what a
read of that register gives, every other register reads as before, and a read gives what State holds. Every
destination operand (Load, Add, Sub, Mul, Div) writes the register it names and no other; every source operand (of the
arithmetic instructions, the comparisons and the jumps) gives the instruction the full value of the register it names,
as the results of those instructions' own rules show (R60, R63 to R66, R71 to R73, R77 to R82, R84). An index 0 to 31
is accepted in every operand of every instruction (R11). -/
def Obligations.RegistersAreOrdinaryAndIndependent : Prop :=
  (∀ (s : State) (i : Fin 32) (v : Word),
    s.x i = s.regs[i] ∧ (s.setX i v).x i = v ∧ ∀ j, j ≠ i → (s.setX i v).x j = s.x j) ∧
  (∀ (s : State) (rd : Byte) (imm : Half) (h : rd.toNat < 32), ∃ t, exec (.load rd imm) s = .next t ∧
    t.regs[rd.toNat] = imm.setWidth 32 ∧ ∀ n (hn : n < 32), n ≠ rd.toNat → t.regs[n] = s.regs[n]) ∧
  (∀ (m : ArithOverflow) (s : State) (rs1 rs2 rd : Byte) (h1 : rs1.toNat < 32) (h2 : rs2.toNat < 32)
      (h : rd.toNat < 32) (a b : Int), a = (s.x ⟨rs1.toNat, h1⟩).toInt → b = (s.x ⟨rs2.toNat, h2⟩).toInt →
    ∀ c ∈ ([(.add rs1 rs2 rd, a + b), (.sub rs1 rs2 rd, a - b), (.mul rs1 rs2 rd, a * b),
        (.div rs1 rs2 rd, a.tdiv b)] : List (Instr × Int)),
      (c.1 = .div rs1 rs2 rd → b ≠ 0) → -2 ^ 31 ≤ c.2 → c.2 ≤ 2 ^ 31 - 1 →
      ∃ t, exec c.1 s = .next t ∧ execAt m c.1 s = .next t ∧ (t.x ⟨rd.toNat, h⟩).toInt = c.2 ∧
        ∀ j, j ≠ ⟨rd.toNat, h⟩ → t.x j = s.x j) ∧
  (∀ (s : State) (r1 r2 pad : Byte) (h1 : r1.toNat < 32) (h2 : r2.toNat < 32) (a b : Int),
    a = (s.x ⟨r1.toNat, h1⟩).toInt → b = (s.x ⟨r2.toNat, h2⟩).toInt →
    ∀ c ∈ ([(.eq r1 r2 pad, decide (a = b)), (.neq r1 r2 pad, decide (a ≠ b)), (.gte r1 r2 pad, decide (a ≥ b)),
        (.lte r1 r2 pad, decide (a ≤ b)), (.lt r1 r2 pad, decide (a < b)), (.gt r1 r2 pad, decide (a > b))] :
        List (Instr × Bool)),
      ∃ t, exec c.1 s = .next t ∧ t.eqFlag = c.2) ∧
  (∀ (s : State) (rt : Byte) (h : rt.toNat < 32) (n : Nat), n = (s.x ⟨rt.toNat, h⟩).toNat →
    (n ≤ s.len → ∃ t, exec (.jmp rt) s = .next t ∧ t.pc.toNat = n) ∧
    (s.pc.toNat + 2 + n ≤ s.len → ∃ t, exec (.jmpf rt) s = .next t ∧ t.pc.toNat = s.pc.toNat + 2 + n) ∧
    (s.pc.toNat + 2 ≤ s.len → n ≤ s.pc.toNat + 2 →
      ∃ t, exec (.jmpb rt) s = .next t ∧ t.pc.toNat = s.pc.toNat + 2 - n) ∧
    (s.eqFlag = true → n ≤ s.len → ∃ t, exec (.jmpe rt) s = .next t ∧ t.pc.toNat = n)) ∧
  ∀ (m : ArithOverflow) (i : Instr) (s t : State) (v : Byte), s.run = .running → i.regsValid = true →
    execAt m i s = .next t → t.run ≠ .halted (.fault (.registerIndexOutOfRange v))

/-- R69: no arithmetic instruction reads or writes the equal flag, and no instruction but Div writes `rem`. -/
def Obligations.ArithmeticIgnoresTheFlag : Prop :=
  (∀ (m : ArithOverflow) (i : Instr) (s t : State), i.op ∈ [.add, .sub, .mul, .div] → execAt m i s = .next t →
    t.eqFlag = s.eqFlag ∧ ∀ b : Bool, execAt m i { s with eqFlag := b } = .next { t with eqFlag := b }) ∧
  ∀ (m : ArithOverflow) (i : Instr) (s t : State), i.op ≠ .div → execAt m i s = .next t → t.rem = s.rem

/-- Where no overflow fault is raised, the two values of ARITH_OVERFLOW give the same step. -/
def Obligations.WithoutOverflowTheParametersAgree : Prop :=
  ∀ (p : Params) (s t : State), stepAt { p with overflow := .fault } s = .next t →
    (s.run = .running → t.run ≠ .halted (.fault .arithmeticOverflow)) →
    stepAt { p with overflow := .wrap } s = .next t

/-- A zero divisor faults, whatever the dividend, and the destination register is not written; that `rem` and `pc`
stay too is the spec's decision D7 (log 7). -/
def Obligations.ZeroDivisorFaults : Prop :=
  ∀ (m : ArithOverflow) (s : State) (rs1 rs2 rd : Byte), rs1.toNat < 32 → ∀ h2 : rs2.toNat < 32, rd.toNat < 32 →
    s.regs[rs2.toNat] = 0#32 →
    exec (.div rs1 rs2 rd) s = .next { s with run := .halted (.fault .divideByZero) } ∧
    execAt m (.div rs1 rs2 rd) s = .next { s with run := .halted (.fault .divideByZero) }

/-- The quotient and the remainder register rebuild the dividend; the remainder is smaller than the divisor and zero
or of the dividend's sign (the spec's decision D5, log 12). -/
def Obligations.QuotientAndRemainderRebuildTheDividend : Prop :=
  ∀ (m : ArithOverflow) (s : State) (rs1 rs2 rd : Byte) (h1 : rs1.toNat < 32) (h2 : rs2.toNat < 32)
    (h : rd.toNat < 32) (a b : Int), a = s.regs[rs1.toNat].toInt → b = s.regs[rs2.toNat].toInt → b ≠ 0 →
    ¬ (a = -2 ^ 31 ∧ b = -1) →
    ∃ t, execAt m (.div rs1 rs2 rd) s = .next t ∧
      t.regs[rd.toNat].toInt * b + t.rem.toInt = a ∧ |t.rem.toInt| < |b| ∧
      (t.rem.toInt = 0 ∨ t.rem.toInt.sign = a.sign)

/-- -2^31 / -1 under both values of ARITH_OVERFLOW (the spec's decision D4, log 2; `pc` stays on the fault by D7, log
7). -/
def Obligations.MinimumDividedByMinusOne : Prop :=
  ∀ (s : State) (rs1 rs2 rd : Byte) (h1 : rs1.toNat < 32) (h2 : rs2.toNat < 32) (h : rd.toNat < 32),
    s.regs[rs1.toNat] = 0x80000000#32 → s.regs[rs2.toNat] = 0xFFFFFFFF#32 →
    execAt .wrap (.div rs1 rs2 rd) s =
      .next { s with regs := s.regs.set rd.toNat 0x80000000#32 h, rem := 0#32, pc := s.pc + 4#32 } ∧
    execAt .fault (.div rs1 rs2 rd) s = .next { s with run := .halted (.fault .arithmeticOverflow) }

/-- Every instruction that names a register faults on the first index byte above 31 in encoding order, before it does
anything (the order and the check of an unused index are the spec's decisions D8 and D10, log 8; that `pc` stays is
its D7, log 7). -/
def Obligations.FirstBadIndexFaults : Prop :=
  ∀ (m : ArithOverflow) (i : Instr) (s : State) (v : Byte),
    i.regBytes.find? (fun b => decide (32 ≤ b.toNat)) = some v →
    execAt m i s = .next { s with run := .halted (.fault (.registerIndexOutOfRange v)) } ∧
    exec i s = .next { s with run := .halted (.fault (.registerIndexOutOfRange v)) }

/-- The flag after Neq is the opposite of the flag after Eq, after Lt that of Gte, after Gt that of Lte; and Eq tests
equality of the 32 bits. -/
def Obligations.ComparisonsAreComplementary : Prop :=
  ∀ (s : State) (r1 r2 pad : Byte) (h1 : r1.toNat < 32) (h2 : r2.toNat < 32),
    ∃ te tn tge tle tlt tgt : State,
      exec (.eq r1 r2 pad) s = .next te ∧ exec (.neq r1 r2 pad) s = .next tn ∧
      exec (.gte r1 r2 pad) s = .next tge ∧ exec (.lte r1 r2 pad) s = .next tle ∧
      exec (.lt r1 r2 pad) s = .next tlt ∧ exec (.gt r1 r2 pad) s = .next tgt ∧
      tn.eqFlag = !te.eqFlag ∧ tlt.eqFlag = !tge.eqFlag ∧ tgt.eqFlag = !tle.eqFlag ∧
      (te.eqFlag = true ↔ s.regs[r1.toNat] = s.regs[r2.toNat])

/-! ### Faults, halts and the ways back -/

/-- A step that faults, with any of the five kinds and under every parameter, changes nothing but the run state, and
the step returns the fault, as does the run it ends (spec/60_exceptions.md section 2; that `pc` and `rem` stay too is
the spec's decision D7, log 7). -/
def Obligations.FaultChangesOnlyTheRunState : Prop :=
  (∀ (p : Params) (s t : State) (f : EngineFault), s.run = .running → stepAt p s = .next t →
    t.run = .halted (.fault f) →
    t = { s with run := .halted (.fault f) } ∧ stepResultAt p s = .next (t, .faulted f) ∧
      ∀ k, runForAt p (k + 1) s = .next (t, .faulted f)) ∧
  ∀ (s t : State) (f : EngineFault), s.run = .running → step s = .next t → t.run = .halted (.fault f) →
    t = { s with run := .halted (.fault f) } ∧ stepResult s = .next (t, .faulted f) ∧
      ∀ k, runFor (k + 1) s = .next (t, .faulted f)

/-- A faulted engine stays as it is, step after step and run after run, with the same result; a load or a reset makes
it Running again, and a load repairs no register (the repeated result and what a load keeps are the spec's decisions
D14 and D15, logs 9 and 13). -/
def Obligations.FaultedEngineStaysUntilLoadOrReset : Prop :=
  ∀ (p : Params) (s : State) (f : EngineFault), s.run = .halted (.fault f) →
    (∀ k t, (StepsAt p k s t ↔ t = s) ∧ (Steps k s t ↔ t = s)) ∧
    stepResultAt p s = .next (s, .faulted f) ∧ stepResult s = .next (s, .faulted f) ∧
    (∀ k, runForAt p (k + 1) s = .next (s, .faulted f) ∧ runFor (k + 1) s = .next (s, .faulted f)) ∧
    (∀ (bytes : List Byte) (t : State), loadProgram bytes s = some t →
      t.run = .running ∧ t.regs = s.regs ∧ t.eqFlag = s.eqFlag ∧ t.rem = s.rem) ∧
    (hostResetWith p.remReset p.eqReset s).run = .running ∧ (hostReset s).run = .running

/-- Exactly when a step raises PcOutOfRange, and with what target (spec/60_exceptions.md section 1; missing operand
bytes are the spec's decision D9, a Jmpf sum past 32 bits its decision D11, log 8). -/
def Obligations.PcOutOfRangeExactlyWhen : Prop :=
  ∀ (p : Params) (s t : State) (x : Nat), s.run = .running → stepAt p s = .next t →
    (t.run = .halted (.fault (.pcOutOfRange x)) ↔
      ∃ b0, s.buf.byteAt s.pc.toNat = some b0 ∧
        ((s.len < s.pc.toNat + (opMap p.opTable b0).ilen ∧ x = s.pc.toNat + (opMap p.opTable b0).ilen) ∨
         ∃ (rt : Byte) (h : rt.toNat < 32), s.buf.byteAt (s.pc.toNat + 1) = some rt ∧ s.len < x ∧
           ((opMap p.opTable b0 = .jmp ∧ x = s.regs[rt.toNat].toNat) ∨
            (opMap p.opTable b0 = .jmpe ∧ s.eqFlag = true ∧ x = s.regs[rt.toNat].toNat) ∨
            (opMap p.opTable b0 = .jmpf ∧ x = s.pc.toNat + 2 + s.regs[rt.toNat].toNat ∧ x < 2 ^ 32))))

/-- Exactly when a step raises JumpOffsetOutOfRange: Jmpb below offset 0, Jmpf past the 32-bit program counter (the
overflow case is the spec's decision D11, log 8). -/
def Obligations.JumpOffsetFaultExactlyWhen : Prop :=
  ∀ (p : Params) (s t : State) (w : OffsetCase), s.run = .running → stepAt p s = .next t →
    (t.run = .halted (.fault (.jumpOffsetOutOfRange w)) ↔
      ∃ (b0 rt : Byte) (h : rt.toNat < 32), s.bytesAt s.pc.toNat [b0, rt] ∧
        ((opMap p.opTable b0 = .jmpb ∧ w = .underflow ∧ s.pc.toNat + 2 < s.regs[rt.toNat].toNat) ∨
         (opMap p.opTable b0 = .jmpf ∧ w = .overflow ∧ 2 ^ 32 ≤ s.pc.toNat + 2 + s.regs[rt.toNat].toNat)))

/-- The halt cause says what stopped the engine: Halt, Illegal or the end of the buffer, none of them a fault; and no
overflow faults under the default of ARITH_OVERFLOW (log 2). The cause at the end of the buffer is the spec's decision
D19 (log 21), Illegal as a normal halt its D23 (log 24). -/
def Obligations.HaltCauseSaysWhatStoppedTheEngine : Prop :=
  ∀ (p : Params) (s t : State), s.run = .running → stepAt p s = .next t →
    (t.run = .halted .haltOp ↔ (s.buf.byteAt s.pc.toNat).map (opMap p.opTable) = some .halt) ∧
    (t.run = .halted .illegalOp ↔ (s.buf.byteAt s.pc.toNat).map (opMap p.opTable) = some .illegal) ∧
    (t.run = .halted .endOfBuffer ↔ s.len ≤ s.pc.toNat) ∧
    (t.noFault = false ↔ ∃ f, t.run = .halted (.fault f)) ∧
    (p.overflow = .wrap → t.run ≠ .halted (.fault .arithmeticOverflow))

/-- One notice for each Halt and each Illegal executed, and no other: none at the end of the buffer, none for a fault,
none from a halted engine (the notice as an event is the spec's decision D17, the list of them the model's DESIGN
CHOICE, log 10; silence at the end of the buffer is the spec's D19, log 21). -/
def Obligations.NoticesComeOnlyFromHaltAndIllegal : Prop :=
  ∀ (p : Params) (s t : State), stepAt p s = .next t →
    (s.run = .running → t.run = .halted .haltOp → t.notices = s.notices ++ [.haltNotice]) ∧
    (s.run = .running → t.run = .halted .illegalOp → t.notices = s.notices ++ [.illegalNotice]) ∧
    (s.run = .running → t.run ≠ .halted .haltOp → t.run ≠ .halted .illegalOp → t.notices = s.notices) ∧
    (s.run ≠ .running → t.notices = s.notices)

/-! ### Reset, load program and the host -/

/-- The values right after reset, at power-on and by command, and the first step of an engine with nothing loaded
(`eq`, `rem` and the empty buffer are the spec's decisions D6 and D16, logs 4 and 5; that notices stay is log 10).
Under given REM_RESET and EQ_RESET (spec/00_scope.md section 3), `rem` and `eq` take those values and all else is the
same. -/
def Obligations.ResetValues : Prop :=
  (∀ n (h : n < 32), State.reset.regs[n] = 0#32) ∧ State.reset.pc = 0#32 ∧ State.reset.run = .running ∧
  State.reset.eqFlag = false ∧ State.reset.rem = 0#32 ∧ State.reset.len = 0 ∧ State.reset.notices = [] ∧
  (∀ s : State, hostReset s = { State.reset with notices := s.notices }) ∧
  (∀ p : Params, resetAt p = { State.reset with eqFlag := p.eqReset, rem := p.remReset } ∧
    ∀ s : State, hostResetWith p.remReset p.eqReset s = { resetAt p with notices := s.notices }) ∧
  step State.reset = .next { State.reset with run := .halted .endOfBuffer }

/-- A load replaces the whole buffer: its bytes read back at their offsets and nothing stands after them. It sets `pc`
to 0 and Running and keeps the registers, `eq` and `rem` (the spec's decision D15, log 13). Two clauses are the
model's DESIGN CHOICE: the notices emitted so far stay (log 10), and 2^32 bytes or more, which no LEN can hold, are
turned away (log 13). -/
def Obligations.LoadProgramReplacesTheBuffer : Prop :=
  ∀ (bytes : List Byte) (s : State),
    (bytes.length < 2 ^ 32 → ∃ t, loadProgram bytes s = some t ∧
      t.len = bytes.length ∧ (∀ a, t.buf.byteAt a = bytes[a]?) ∧ t.pc = 0#32 ∧ t.run = .running ∧
      t.regs = s.regs ∧ t.eqFlag = s.eqFlag ∧ t.rem = s.rem ∧ t.notices = s.notices) ∧
    (2 ^ 32 ≤ bytes.length → loadProgram bytes s = none)

/-- Two canonical buffers of one length that read the same everywhere are the same data (the representation is the
model's, log 6). -/
def Obligations.EqualReadingBuffersAreEqual : Prop :=
  ∀ m1 m2 : Memory, m1.wf → m2.wf → m1.len = m2.len → (∀ a, m1.byteAt a = m2.byteAt a) → m1 = m2

/-- `run` returns the first result that is not Continue, with the state after the same steps; while every result is
Continue it goes on; on a halted engine it returns at once with the stored result (the spec's decision D14, log 9).
All of it holds under every parameter, and `stepResult` and `runFor` are these at the defaults. -/
def Obligations.RunStopsAtTheFirstResult : Prop :=
  (∀ (p : Params) (k : Nat) (s t : State) (r : StepResult), r ≠ .continue →
    (runForAt p k s = .next (t, r) ↔ ∃ j u, j < k ∧ ContinuesAt p j s u ∧ stepResultAt p u = .next (t, r))) ∧
  (∀ (p : Params) (k : Nat) (s t : State), runForAt p k s = .next (t, .continue) ↔ ContinuesAt p k s t) ∧
  (∀ (p : Params) (k : Nat) (s : State) (c : HaltCause), s.run = .halted c →
    runForAt p (k + 1) s = .next (s, resultOf (.halted c))) ∧
  ∀ (k : Nat) (s t : State), stepResult s = stepResultAt defaultParams s ∧ runFor k s = runForAt defaultParams k s ∧
    (Continues k s t ↔ ContinuesAt defaultParams k s t)

/-- While a run is in progress the engine takes one step at a time, and of the commands, the reads among them, only
`reset` is accepted, which ends the run (the command interface is the spec's decision D18, log 16). An idle engine
accepts every command: `reset` and `load program` are `hostReset` and `loadProgram`, `run` begins a run of a Running
engine, and `run` of a halted one returns at once with the stored result (R99; the stored result is the spec's
decision D14, log 9). The model's DESIGN CHOICES: a command turned away is dropped (log 26), `run` of a Running engine
itself takes no step (log 27), a run that a reset ends has no result of its own (log 28), and a program that no LEN
can hold is turned away (log 13). All of it holds under every parameter, and `command` and `tick` are these at the
defaults. -/
def Obligations.OnlyResetIsAcceptedDuringARun : Prop :=
  (∀ (p : Params) (s : State),
    Session.commandAt p ⟨s, true⟩ .reset = .next (⟨hostResetWith p.remReset p.eqReset s, false⟩, .done) ∧
    (∀ c : Command, c ≠ .reset → Session.commandAt p ⟨s, true⟩ c = .next (⟨s, true⟩, .notAccepted)) ∧
    Session.commandAt p ⟨s, false⟩ .reset = .next (⟨hostResetWith p.remReset p.eqReset s, false⟩, .done) ∧
    (∀ (bytes : List Byte) (t : State),
      Session.commandAt p ⟨s, false⟩ (.loadProgram bytes) = .next (⟨t, false⟩, .done) ↔ loadProgram bytes s = some t) ∧
    (∀ bytes : List Byte, loadProgram bytes s = none →
      Session.commandAt p ⟨s, false⟩ (.loadProgram bytes) = .next (⟨s, false⟩, .notAccepted)) ∧
    (s.run = .running → Session.commandAt p ⟨s, false⟩ .run = .next (⟨s, true⟩, .running)) ∧
    (∀ c : HaltCause, s.run = .halted c →
      Session.commandAt p ⟨s, false⟩ .run = .next (⟨s, false⟩, .result (resultOf (.halted c)))) ∧
    ∃ t r, stepResultAt p s = .next (t, r) ∧
      Session.commandAt p ⟨s, false⟩ .step = .next (⟨t, false⟩, .result r) ∧
      (r = .continue → Session.tickAt p ⟨s, true⟩ = .next (⟨t, true⟩, .running)) ∧
      (r ≠ .continue → Session.tickAt p ⟨s, true⟩ = .next (⟨t, false⟩, .result r))) ∧
  ∀ (z : Session) (c : Command), z.command c = z.commandAt defaultParams c ∧ z.tick = z.tickAt defaultParams ∧
    hostReset z.engine = hostResetWith defaultParams.remReset defaultParams.eqReset z.engine

/-- A run is in progress only while the engine is Running: every command and every step of a run keeps it so, and a
run whose step halts the engine is over (R99; the command interface is the spec's decision D18, log 16). -/
def Obligations.RunInProgressOnlyWhileRunning : Prop :=
  ∀ (p : Params) (z z' : Session) (a : Reply), (z.runActive = true → z.engine.run = .running) →
    ((∃ c, z.commandAt p c = .next (z', a) ∨ z.command c = .next (z', a)) ∨
      z.tickAt p = .next (z', a) ∨ z.tick = .next (z', a)) →
    (z'.runActive = true → z'.engine.run = .running) ∧
    ∀ (k : HaltCause), z.runActive = true → (z.tickAt p = .next (z', a) ∨ z.tick = .next (z', a)) →
      z'.engine.run = .halted k → z'.runActive = false ∧ a = .result (resultOf (.halted k))

/-- A read of an idle engine answers with every piece of state of the engine, the buffer and LEN among them, and
changes nothing; two engines that read alike differ in no state but the notices they have emitted. That the buffer can
be read is DEDUCED (log 25); reads as a command are the spec's decision D18 (log 16). -/
def Obligations.HostReadsAllStateAndChangesNothing : Prop :=
  ∀ s : State,
    Session.command ⟨s, false⟩ .read = .next (⟨s, false⟩, .view s.view) ∧
    (∀ p : Params, Session.commandAt p ⟨s, false⟩ .read = .next (⟨s, false⟩, .view s.view)) ∧
    s.view.regs = s.regs ∧ s.view.pc = s.pc ∧ s.view.eqFlag = s.eqFlag ∧ s.view.rem = s.rem ∧
    s.view.run = s.run ∧ s.view.buf.len = s.buf.len ∧ (∀ a, s.view.buf.byteAt a = s.buf.byteAt a) ∧
    ∀ u : State, u.view = s.view ↔ u = { s with notices := u.notices }

/-- Once an Illegal has halted the engine, the host finds the byte that was executed in the buffer just before `pc`,
and it is a byte that OPMAP gives to Illegal (spec/45_termination.md R87; the buffer in the view is DEDUCED, log 25).
-/
def Obligations.HostFindsTheIllegalByteBehindPc : Prop :=
  ∀ (p : Params) (s t : State), s.run = .running → stepAt p s = .next t → t.run = .halted .illegalOp →
    ∃ b : Byte, s.buf.byteAt s.pc.toNat = some b ∧ opMap p.opTable b = .illegal ∧
      t.pc.toNat = s.pc.toNat + 1 ∧ t.view.buf.byteAt (t.view.pc.toNat - 1) = some b
end

