-- ==== Sys2Proof/Laws/Host.lean ====
section
/-! SUPPORT. What the host's reads, commands and runs can answer, said once. -/

namespace Sys2Proof.Machine

@[simp] theorem view_regs (s : State) : s.view.regs = s.regs := rfl
@[simp] theorem view_pc (s : State) : s.view.pc = s.pc := rfl
@[simp] theorem view_rem (s : State) : s.view.rem = s.rem := rfl
@[simp] theorem view_eqFlag (s : State) : s.view.eqFlag = s.eqFlag := rfl
@[simp] theorem view_run (s : State) : s.view.run = s.run := rfl
@[simp] theorem view_buf (s : State) : s.view.buf = s.buf := rfl

@[simp] theorem resultOf_running : resultOf .running = .continue := rfl
@[simp] theorem resultOf_fault (f : EngineFault) : resultOf (.halted (.fault f)) = .faulted f := rfl
@[simp] theorem resultOf_endOfBuffer : resultOf (.halted .endOfBuffer) = .halted .endOfBuffer := rfl
@[simp] theorem resultOf_haltOp : resultOf (.halted .haltOp) = .halted .haltOp := rfl
@[simp] theorem resultOf_illegalOp : resultOf (.halted .illegalOp) = .halted .illegalOp := rfl

/-- The result is Continue exactly while the engine is Running (R93). -/
theorem resultOf_eq_continue (r : RunState) : resultOf r = .continue ↔ r = .running := by
  rcases r with _ | (_ | _ | _ | _) <;> simp

/-- A step's result is the one that goes with the run state it leaves. -/
theorem resultIn_cases {f : State → Outcome} {s t : State} {r : StepResult} (h : resultIn f s = .next (t, r)) :
    f s = .next t ∧ r = resultOf t.run := by
  unfold resultIn at h
  split at h
  · next u hu => cases h; exact ⟨hu, rfl⟩
  · cases h
  · cases h

/-- Every way a command of the host can be answered. -/
theorem commandIn_cases {f : State → Outcome} {reset : State → State} {z z' : Session} {c : Command} {a : Reply}
    (h : z.commandIn f reset c = .next (z', a)) :
    (c = .reset ∧ z' = ⟨reset z.engine, false⟩ ∧ a = .done) ∨
    (z.runActive = true ∧ c ≠ .reset ∧ z' = z ∧ a = .notAccepted) ∨
    (z.runActive = false ∧
      ((∃ bytes t, c = .loadProgram bytes ∧ loadProgram bytes z.engine = some t ∧ z' = ⟨t, false⟩ ∧ a = .done) ∨
       (∃ bytes, c = .loadProgram bytes ∧ loadProgram bytes z.engine = none ∧ z' = z ∧ a = .notAccepted) ∨
       (∃ t r, c = .step ∧ resultIn f z.engine = .next (t, r) ∧ z' = ⟨t, false⟩ ∧ a = .result r) ∨
       (c = .run ∧ z.engine.run = .running ∧ z' = ⟨z.engine, true⟩ ∧ a = .running) ∨
       (∃ w, c = .run ∧ z.engine.run = .halted w ∧ z' = z ∧ a = .result (resultOf (.halted w))) ∨
       (c = .read ∧ z' = z ∧ a = .view z.engine.view))) := by
  obtain ⟨s, act⟩ := z
  cases c with
  | reset => cases h; exact .inl ⟨rfl, rfl, rfl⟩
  | loadProgram bytes =>
    cases act with
    | true => cases h; exact .inr (.inl ⟨rfl, by simp, rfl, rfl⟩)
    | false =>
      simp only [Session.commandIn] at h
      split at h
      · next t ht => cases h; exact .inr (.inr ⟨rfl, .inl ⟨bytes, t, rfl, ht, rfl, rfl⟩⟩)
      · next hn => cases h; exact .inr (.inr ⟨rfl, .inr (.inl ⟨bytes, rfl, hn, rfl, rfl⟩)⟩)
  | step =>
    cases act with
    | true => cases h; exact .inr (.inl ⟨rfl, by simp, rfl, rfl⟩)
    | false =>
      simp only [Session.commandIn] at h
      split at h
      · next t r hr => cases h; exact .inr (.inr ⟨rfl, .inr (.inr (.inl ⟨t, r, rfl, hr, rfl, rfl⟩))⟩)
      · cases h
      · cases h
  | run =>
    cases act with
    | true => cases h; exact .inr (.inl ⟨rfl, by simp, rfl, rfl⟩)
    | false =>
      simp only [Session.commandIn] at h
      split at h
      · next hr => cases h; exact .inr (.inr ⟨rfl, .inr (.inr (.inr (.inl ⟨rfl, hr, rfl, rfl⟩)))⟩)
      · next w hr => cases h; exact .inr (.inr ⟨rfl, .inr (.inr (.inr (.inr (.inl ⟨w, rfl, hr, rfl, rfl⟩))))⟩)
  | read =>
    cases act with
    | true => cases h; exact .inr (.inl ⟨rfl, by simp, rfl, rfl⟩)
    | false => cases h; exact .inr (.inr ⟨rfl, .inr (.inr (.inr (.inr (.inr ⟨rfl, rfl, rfl⟩))))⟩)

/-- Every way a run in progress can go on: one step, after which the run goes on exactly if the result is Continue. -/
theorem tickIn_cases {f : State → Outcome} {z z' : Session} {a : Reply} (h : z.tickIn f = .next (z', a)) :
    (z.runActive = false ∧ z' = z ∧ a = .notAccepted) ∨
    (z.runActive = true ∧ ∃ t r, resultIn f z.engine = .next (t, r) ∧
      ((r = .continue ∧ z' = ⟨t, true⟩ ∧ a = .running) ∨ (r ≠ .continue ∧ z' = ⟨t, false⟩ ∧ a = .result r))) := by
  obtain ⟨s, act⟩ := z
  cases act with
  | false => cases h; exact .inl ⟨rfl, rfl, rfl⟩
  | true =>
    simp only [Session.tickIn] at h
    split at h
    · next t hr => cases h; exact .inr ⟨rfl, t, _, hr, .inl ⟨rfl, rfl, rfl⟩⟩
    · next t r hne hr =>
      cases h
      exact .inr ⟨rfl, t, r, hr, .inr ⟨hne, rfl, rfl⟩⟩
    · cases h
    · cases h

end Sys2Proof.Machine
end

