-- ==== Sys2Proof/Laws/State.lean ====
section
/-! SUPPORT. One lemma per field per update of `State`, so that no later proof unfolds a record update. -/

namespace Sys2Proof.Machine

@[simp] theorem setX_regs (s : State) (i : Fin 32) (v : Word) : (s.setX i v).regs = s.regs.set i v := rfl
@[simp] theorem setX_pc (s : State) (i : Fin 32) (v : Word) : (s.setX i v).pc = s.pc := rfl
@[simp] theorem setX_eqFlag (s : State) (i : Fin 32) (v : Word) : (s.setX i v).eqFlag = s.eqFlag := rfl
@[simp] theorem setX_rem (s : State) (i : Fin 32) (v : Word) : (s.setX i v).rem = s.rem := rfl
@[simp] theorem setX_run (s : State) (i : Fin 32) (v : Word) : (s.setX i v).run = s.run := rfl
@[simp] theorem setX_buf (s : State) (i : Fin 32) (v : Word) : (s.setX i v).buf = s.buf := rfl
@[simp] theorem setX_notices (s : State) (i : Fin 32) (v : Word) : (s.setX i v).notices = s.notices := rfl

@[simp] theorem setPc_regs (s : State) (t : Nat) : (s.setPc t).regs = s.regs := rfl
@[simp] theorem setPc_pc (s : State) (t : Nat) : (s.setPc t).pc = BitVec.ofNat 32 t := rfl
@[simp] theorem setPc_eqFlag (s : State) (t : Nat) : (s.setPc t).eqFlag = s.eqFlag := rfl
@[simp] theorem setPc_rem (s : State) (t : Nat) : (s.setPc t).rem = s.rem := rfl
@[simp] theorem setPc_run (s : State) (t : Nat) : (s.setPc t).run = s.run := rfl
@[simp] theorem setPc_buf (s : State) (t : Nat) : (s.setPc t).buf = s.buf := rfl
@[simp] theorem setPc_notices (s : State) (t : Nat) : (s.setPc t).notices = s.notices := rfl

@[simp] theorem setEq_regs (s : State) (b : Bool) : (s.setEq b).regs = s.regs := rfl
@[simp] theorem setEq_pc (s : State) (b : Bool) : (s.setEq b).pc = s.pc := rfl
@[simp] theorem setEq_eqFlag (s : State) (b : Bool) : (s.setEq b).eqFlag = b := rfl
@[simp] theorem setEq_rem (s : State) (b : Bool) : (s.setEq b).rem = s.rem := rfl
@[simp] theorem setEq_run (s : State) (b : Bool) : (s.setEq b).run = s.run := rfl
@[simp] theorem setEq_buf (s : State) (b : Bool) : (s.setEq b).buf = s.buf := rfl
@[simp] theorem setEq_notices (s : State) (b : Bool) : (s.setEq b).notices = s.notices := rfl

@[simp] theorem setRem_regs (s : State) (v : Word) : (s.setRem v).regs = s.regs := rfl
@[simp] theorem setRem_pc (s : State) (v : Word) : (s.setRem v).pc = s.pc := rfl
@[simp] theorem setRem_eqFlag (s : State) (v : Word) : (s.setRem v).eqFlag = s.eqFlag := rfl
@[simp] theorem setRem_rem (s : State) (v : Word) : (s.setRem v).rem = v := rfl
@[simp] theorem setRem_run (s : State) (v : Word) : (s.setRem v).run = s.run := rfl
@[simp] theorem setRem_buf (s : State) (v : Word) : (s.setRem v).buf = s.buf := rfl
@[simp] theorem setRem_notices (s : State) (v : Word) : (s.setRem v).notices = s.notices := rfl

@[simp] theorem emit_regs (s : State) (n : Notice) : (s.emit n).regs = s.regs := rfl
@[simp] theorem emit_pc (s : State) (n : Notice) : (s.emit n).pc = s.pc := rfl
@[simp] theorem emit_eqFlag (s : State) (n : Notice) : (s.emit n).eqFlag = s.eqFlag := rfl
@[simp] theorem emit_rem (s : State) (n : Notice) : (s.emit n).rem = s.rem := rfl
@[simp] theorem emit_run (s : State) (n : Notice) : (s.emit n).run = s.run := rfl
@[simp] theorem emit_buf (s : State) (n : Notice) : (s.emit n).buf = s.buf := rfl
@[simp] theorem emit_notices (s : State) (n : Notice) : (s.emit n).notices = s.notices ++ [n] := rfl

@[simp] theorem haltWith_regs (s : State) (c : HaltCause) : (s.haltWith c).regs = s.regs := rfl
@[simp] theorem haltWith_pc (s : State) (c : HaltCause) : (s.haltWith c).pc = s.pc := rfl
@[simp] theorem haltWith_eqFlag (s : State) (c : HaltCause) : (s.haltWith c).eqFlag = s.eqFlag := rfl
@[simp] theorem haltWith_rem (s : State) (c : HaltCause) : (s.haltWith c).rem = s.rem := rfl
@[simp] theorem haltWith_run (s : State) (c : HaltCause) : (s.haltWith c).run = .halted c := rfl
@[simp] theorem haltWith_buf (s : State) (c : HaltCause) : (s.haltWith c).buf = s.buf := rfl
@[simp] theorem haltWith_notices (s : State) (c : HaltCause) : (s.haltWith c).notices = s.notices := rfl

@[simp] theorem raiseFault_regs (s : State) (f : EngineFault) : (s.raiseFault f).regs = s.regs := rfl
@[simp] theorem raiseFault_pc (s : State) (f : EngineFault) : (s.raiseFault f).pc = s.pc := rfl
@[simp] theorem raiseFault_eqFlag (s : State) (f : EngineFault) : (s.raiseFault f).eqFlag = s.eqFlag := rfl
@[simp] theorem raiseFault_rem (s : State) (f : EngineFault) : (s.raiseFault f).rem = s.rem := rfl
@[simp] theorem raiseFault_run (s : State) (f : EngineFault) : (s.raiseFault f).run = .halted (.fault f) := rfl
@[simp] theorem raiseFault_buf (s : State) (f : EngineFault) : (s.raiseFault f).buf = s.buf := rfl
@[simp] theorem raiseFault_notices (s : State) (f : EngineFault) : (s.raiseFault f).notices = s.notices := rfl

end Sys2Proof.Machine
end

