-- ==== Sys2Proof/Laws/Memory.lean ====
section
/-! SUPPORT. The instruction buffer: every operation keeps the canonical form, and what a byte reads after a byte is
set. -/

namespace Sys2Proof.Machine

theorem empty_wf : Memory.empty.wf := by decide

theorem reset_buf_wf : State.reset.buf.wf := by decide

theorem byteAt_isSome_iff (m : Memory) (a : Nat) : (m.byteAt a).isSome ↔ a < m.len.toNat := by
  unfold Memory.byteAt; split <;> simp_all

theorem byteAt_eq_none_iff (m : Memory) (a : Nat) : m.byteAt a = none ↔ m.len.toNat ≤ a := by
  unfold Memory.byteAt; split <;> simp_all

/-- MemRead is defined exactly below LEN. -/
theorem memRead_eq_ok_iff (m : Memory) (a : Nat) (b : Byte) : m.memRead a = .ok b ↔ m.byteAt a = some b := by
  unfold Memory.memRead; cases m.byteAt a <;> simp

theorem memRead_of_byteAt {m : Memory} {a : Nat} {b : Byte} (h : m.byteAt a = some b) : m.memRead a = .ok b :=
  (memRead_eq_ok_iff m a b).2 h

/-- What a read of several bytes answers: the bytes that stand at the consecutive offsets. -/
theorem readBytes_eq_ok_iff (m : Memory) (n a : Nat) (bs : List Byte) :
    m.readBytes a n = .ok bs ↔ bs.length = n ∧ ∀ k (h : k < bs.length), m.byteAt (a + k) = some bs[k] := by
  induction n generalizing a bs with
  | zero => cases bs <;> simp [Memory.readBytes]
  | succ n ih =>
    unfold Memory.readBytes
    cases hb : m.byteAt a with
    | none =>
      have : m.memRead a = .error (.readOutsideBuffer a) := by simp [Memory.memRead, hb]
      rw [this]
      simp only [reduceCtorEq, false_iff, not_and]
      intro hl hk
      have := hk 0 (by omega)
      simp [hb] at this
    | some b =>
      rw [memRead_of_byteAt hb]
      simp only
      cases bs with
      | nil => cases m.readBytes (a + 1) n <;> simp
      | cons c cs =>
        have key : m.readBytes (a + 1) n = .ok cs ∧ b = c ↔
            (c :: cs).length = n + 1 ∧ ∀ k (h : k < (c :: cs).length), m.byteAt (a + k) = some (c :: cs)[k] := by
          rw [ih]
          constructor
          · rintro ⟨⟨hl, hk⟩, rfl⟩
            refine ⟨by simp [hl], ?_⟩
            rintro (_ | k) h
            · simpa using hb
            · have := hk k (by simpa using h)
              simpa [Nat.add_assoc, Nat.add_comm 1 k] using this
          · rintro ⟨hl, hk⟩
            refine ⟨⟨by simpa using hl, fun k h => ?_⟩, ?_⟩
            · have := hk (k + 1) (by simpa using h)
              simpa [Nat.add_assoc, Nat.add_comm 1 k] using this
            · have := hk 0 (by simp)
              simpa [hb] using this
        rw [← key]
        cases m.readBytes (a + 1) n <;> simp [and_comm]

/-- A read inside LEN succeeds. -/
theorem readBytes_isOk (m : Memory) (n a : Nat) (h : a + n ≤ m.len.toNat) : ∃ bs, m.readBytes a n = .ok bs := by
  induction n generalizing a with
  | zero => exact ⟨[], rfl⟩
  | succ n ih =>
    obtain ⟨bs, hbs⟩ := ih (a + 1) (by omega)
    obtain ⟨b, hb⟩ := Option.isSome_iff_exists.1 ((byteAt_isSome_iff m a).2 (by omega))
    exact ⟨b :: bs, by simp [Memory.readBytes, memRead_of_byteAt hb, hbs]⟩

/-! ### The canonical form -/

theorem mem_cellsFrom {a : Nat} {bs : List Byte} {c : Host.Cell} (h : c ∈ cellsFrom a bs) :
    c.2 ≠ Memory.unlisted ∧ a ≤ c.1 ∧ c.1 < a + bs.length := by
  induction bs generalizing a with
  | nil => simp [cellsFrom] at h
  | cons b bs ih =>
    unfold cellsFrom at h
    split at h
    · obtain ⟨h1, h2, h3⟩ := ih h
      exact ⟨h1, by omega, by simp; omega⟩
    · rcases List.mem_cons.1 h with rfl | h
      · exact ⟨by assumption, by simp, by simp⟩
      · obtain ⟨h1, h2, h3⟩ := ih h
        exact ⟨h1, by omega, by simp; omega⟩

theorem cellsFrom_rising (a : Nat) (bs : List Byte) : ((cellsFrom a bs).map Prod.fst).Pairwise (· < ·) := by
  induction bs generalizing a with
  | nil => simp [cellsFrom]
  | cons b bs ih =>
    unfold cellsFrom
    split
    · exact ih _
    · refine List.pairwise_cons.2 ⟨fun k hk => ?_, ih _⟩
      obtain ⟨c, hc, rfl⟩ := List.mem_map.1 hk
      have := (mem_cellsFrom hc).2.1
      simp; omega

theorem ofBytes_wf (bs : List Byte) (h : bs.length < 2 ^ 32) : (Memory.ofBytes bs).wf := by
  refine ⟨cellsFrom_rising 0 bs, fun c hc => ?_⟩
  obtain ⟨h1, -, h3⟩ := mem_cellsFrom hc
  refine ⟨h1, ?_⟩
  simp only [Memory.ofBytes, BitVec.toNat_ofNat]
  omega

theorem mem_setCell {a : Nat} {b : Byte} {cs : List Host.Cell} {c : Host.Cell} (h : c ∈ setCell a b cs) :
    c ∈ cs ∨ (c = (a, b) ∧ b ≠ Memory.unlisted) := by
  induction cs with
  | nil => unfold setCell at h; split at h <;> simp_all
  | cons d cs ih =>
    obtain ⟨k, v⟩ := d
    unfold setCell at h
    split_ifs at h <;> simp_all <;> tauto

theorem setCell_rising (a : Nat) (b : Byte) (cs : List Host.Cell) (h : (cs.map Prod.fst).Pairwise (· < ·)) :
    ((setCell a b cs).map Prod.fst).Pairwise (· < ·) := by
  induction cs with
  | nil => unfold setCell; split <;> simp
  | cons d cs ih =>
    obtain ⟨k, v⟩ := d
    obtain ⟨h1, h2⟩ := List.pairwise_cons.1 (by simpa using h : (k :: cs.map Prod.fst).Pairwise (· < ·))
    unfold setCell
    split_ifs with hak hb hak' hb
    · exact h
    · refine List.pairwise_cons.2 ⟨fun j hj => ?_, h⟩
      rcases List.mem_cons.1 (by simpa using hj : j ∈ k :: cs.map Prod.fst) with rfl | hj
      · exact hak
      · exact lt_trans hak (h1 j hj)
    · exact h2
    · exact List.pairwise_cons.2 ⟨fun j hj => hak' ▸ h1 j hj, h2⟩
    · refine List.pairwise_cons.2 ⟨fun j hj => ?_, ih h2⟩
      obtain ⟨c, hc, rfl⟩ := List.mem_map.1 hj
      rcases mem_setCell hc with hc | ⟨rfl, -⟩
      · exact h1 _ (List.mem_map_of_mem hc)
      · simp; omega

theorem setByte_wf (m : Memory) (a : Nat) (b : Byte) (h : m.wf) : (m.setByte a b).wf := by
  obtain ⟨h1, h2⟩ := h
  unfold Memory.setByte
  split
  · refine ⟨setCell_rising a b _ h1, fun c hc => ?_⟩
    rcases mem_setCell hc with hc | ⟨rfl, hb⟩
    · refine ⟨(h2 c hc).1, ?_⟩
      have := (h2 c hc).2
      simp only
      split
      · exact this
      · rw [BitVec.toNat_ofNat]; omega
    · refine ⟨hb, ?_⟩
      simp only
      split
      · assumption
      · rw [BitVec.toNat_ofNat]; omega
  · exact ⟨h1, h2⟩

theorem setBytes_wf (m : Memory) (a : Nat) (bs : List Byte) (h : m.wf) : (m.setBytes a bs).wf := by
  induction bs generalizing m a with
  | nil => exact h
  | cons b bs ih => exact ih _ _ (setByte_wf m a b h)

theorem loadProgram_buf_wf {bytes : List Byte} {s t : State} (h : loadProgram bytes s = some t) : t.buf.wf := by
  unfold loadProgram at h
  split at h
  · cases h; exact ofBytes_wf bytes (by assumption)
  · cases h

theorem placeInstr_buf_wf (s : State) (bs : List Byte) (h : s.buf.wf) : (placeInstr s bs).buf.wf := by
  unfold placeInstr; split <;> exact setBytes_wf _ _ _ h

theorem withFetchWord_buf_wf (s : State) (nbits w : Nat) (h : s.buf.wf) : (s.withFetchWord nbits w).buf.wf :=
  placeInstr_buf_wf s _ h

/-! ### Reading after setting -/

theorem lookup_none_of_lt (a : Nat) (cs : List Host.Cell) (h : ∀ c ∈ cs, a < c.1) : cs.lookup a = none := by
  induction cs with
  | nil => rfl
  | cons d cs ih =>
    obtain ⟨k, v⟩ := d
    have hk : a < k := h (k, v) (by simp)
    have : (a == k) = false := by simp; omega
    simp only [List.lookup_cons, this]
    exact ih fun c hc => h c (by simp [hc])

/-- Reading the cells after one is set: the new byte there, the old byte elsewhere. -/
theorem lookup_setCell (a c : Nat) (b : Byte) (cs : List Host.Cell) (h : (cs.map Prod.fst).Pairwise (· < ·)) :
    ((setCell a b cs).lookup c).getD Memory.unlisted =
      if c = a then b else (cs.lookup c).getD Memory.unlisted := by
  induction cs with
  | nil =>
    unfold setCell
    by_cases hc : c = a
    · by_cases hb : b = Memory.unlisted <;> simp [hb, hc]
    · have : (c == a) = false := by simpa using hc
      by_cases hb : b = Memory.unlisted <;> simp [hb, hc, this, List.lookup_cons]
  | cons d cs ih =>
    obtain ⟨k, v⟩ := d
    obtain ⟨h1, h2⟩ := List.pairwise_cons.1 (by simpa using h : (k :: cs.map Prod.fst).Pairwise (· < ·))
    have hgt : ∀ e ∈ cs, k < e.1 := fun e he => h1 _ (List.mem_map_of_mem he)
    unfold setCell
    split_ifs with hak hb hc hc hak' hb hc hc hc
    · subst hb hc
      rw [lookup_none_of_lt]
      · rfl
      · intro e he
        rcases List.mem_cons.1 he with rfl | he
        · exact hak
        · exact lt_trans hak (hgt e he)
    · rfl
    · subst hc; simp
    · have : (c == a) = false := by simpa using hc
      simp [List.lookup_cons, this]
    · subst hak' hb hc
      rw [lookup_none_of_lt _ _ hgt]; rfl
    · subst hak'
      have : (c == a) = false := by simpa using hc
      simp [List.lookup_cons, this]
    · subst hak' hc; simp
    · subst hak'
      have : (c == a) = false := by simpa using hc
      simp [List.lookup_cons, this]
    · subst hc
      have : (c == k) = false := by simp; omega
      simp only [List.lookup_cons, this]
      simpa using ih h2
    · by_cases hck : c = k
      · subst hck; simp
      · have : (c == k) = false := by simpa using hck
        simp only [List.lookup_cons, this]
        simpa [hc] using ih h2

theorem setByte_len (m : Memory) (a : Nat) (b : Byte) (h : a + 1 < 2 ^ 32) :
    (m.setByte a b).len.toNat = max m.len.toNat (a + 1) := by
  simp only [Memory.setByte, h, if_true]
  split
  · omega
  · rw [BitVec.toNat_ofNat]; omega

/-- Setting a byte gives that byte there. -/
theorem byteAt_setByte_self (m : Memory) (a : Nat) (b : Byte) (hm : m.wf) (h : a + 1 < 2 ^ 32) :
    (m.setByte a b).byteAt a = some b := by
  have hl := setByte_len m a b h
  simp only [Memory.byteAt, hl]
  rw [if_pos (by omega)]
  simp only [Memory.setByte, h, if_true]
  rw [lookup_setCell a a b _ hm.1]; simp

/-- Setting a byte leaves every other byte inside the old LEN alone. -/
theorem byteAt_setByte_ne (m : Memory) (a c : Nat) (b : Byte) (hm : m.wf) (hc : c ≠ a) (hlt : c < m.len.toNat) :
    (m.setByte a b).byteAt c = m.byteAt c := by
  by_cases h : a + 1 < 2 ^ 32
  · have hl := setByte_len m a b h
    simp only [Memory.byteAt, hl]
    rw [if_pos (by omega), if_pos hlt]
    simp only [Memory.setByte, h, if_true]
    rw [lookup_setCell a c b _ hm.1]; simp [hc]
  · rw [Memory.setByte, if_neg h]

end Sys2Proof.Machine
end

