-- ==== Sys2Proof/Laws/Ops.lean ====
section
/-! SUPPORT. One lemma for each shared operation that says everything it can do. -/

namespace Sys2Proof.Machine

/-! ### Commit and fault entry -/

@[simp] theorem commit_ok (s t : State) : commit s (.ok t) = .next t := rfl

@[simp] theorem commit_error (s : State) (f : EngineFault) : commit s (.error f) = .next (s.raiseFault f) := rfl

/-- A commit always answers a next state: every write of the rule, or its fault and none of them. -/
theorem commit_next {s t : State} {r : Except EngineFault State} (h : commit s r = .next t) :
    r = .ok t ∨ ∃ f, r = .error f ∧ t = s.raiseFault f := by
  cases r with
  | ok u => left; simpa using h
  | error f => right; exact ⟨f, rfl, by simpa using h.symm⟩

/-! ### Operands -/

theorem regIndex_ok {v : Byte} (h : v.toNat < 32) : regIndex v = .ok ⟨v.toNat, h⟩ := by simp [regIndex, h]

theorem regIndex_error {v : Byte} (h : 32 ≤ v.toNat) : regIndex v = .error (.registerIndexOutOfRange v) := by
  simp [regIndex, Nat.not_lt.2 h]

/-- Every answer of the register-index check. -/
theorem regIndex_cases (v : Byte) :
    (∃ h : v.toNat < 32, regIndex v = .ok ⟨v.toNat, h⟩) ∨
    (32 ≤ v.toNat ∧ regIndex v = .error (.registerIndexOutOfRange v)) := by
  by_cases h : v.toNat < 32
  · exact .inl ⟨h, regIndex_ok h⟩
  · exact .inr ⟨by omega, regIndex_error (by omega)⟩

theorem regIndex2_ok {v w : Byte} (hv : v.toNat < 32) (hw : w.toNat < 32) :
    regIndex2 v w = .ok (⟨v.toNat, hv⟩, ⟨w.toNat, hw⟩) := by
  simp [regIndex2, regIndex_ok hv, regIndex_ok hw]

theorem regIndex3_ok {v w z : Byte} (hv : v.toNat < 32) (hw : w.toNat < 32) (hz : z.toNat < 32) :
    regIndex3 v w z = .ok (⟨v.toNat, hv⟩, ⟨w.toNat, hw⟩, ⟨z.toNat, hz⟩) := by
  simp [regIndex3, regIndex2_ok hv hw, regIndex_ok hz]

/-- Every answer of the check of two index bytes: both valid, or the first bad one. -/
theorem regIndex2_cases (v w : Byte) :
    (∃ (hv : v.toNat < 32) (hw : w.toNat < 32), regIndex2 v w = .ok (⟨v.toNat, hv⟩, ⟨w.toNat, hw⟩)) ∨
    (32 ≤ v.toNat ∧ regIndex2 v w = .error (.registerIndexOutOfRange v)) ∨
    (v.toNat < 32 ∧ 32 ≤ w.toNat ∧ regIndex2 v w = .error (.registerIndexOutOfRange w)) := by
  rcases regIndex_cases v with ⟨hv, h⟩ | ⟨hv, h⟩
  · rcases regIndex_cases w with ⟨hw, h'⟩ | ⟨hw, h'⟩
    · exact .inl ⟨hv, hw, regIndex2_ok hv hw⟩
    · exact .inr (.inr ⟨hv, hw, by simp [regIndex2, h, h']⟩)
  · exact .inr (.inl ⟨hv, by simp [regIndex2, h]⟩)

/-- Every answer of the check of three index bytes: all valid, or the first bad one. -/
theorem regIndex3_cases (v w z : Byte) :
    (∃ (hv : v.toNat < 32) (hw : w.toNat < 32) (hz : z.toNat < 32),
      regIndex3 v w z = .ok (⟨v.toNat, hv⟩, ⟨w.toNat, hw⟩, ⟨z.toNat, hz⟩)) ∨
    (32 ≤ v.toNat ∧ regIndex3 v w z = .error (.registerIndexOutOfRange v)) ∨
    (v.toNat < 32 ∧ 32 ≤ w.toNat ∧ regIndex3 v w z = .error (.registerIndexOutOfRange w)) ∨
    (v.toNat < 32 ∧ w.toNat < 32 ∧ 32 ≤ z.toNat ∧ regIndex3 v w z = .error (.registerIndexOutOfRange z)) := by
  rcases regIndex2_cases v w with ⟨hv, hw, h⟩ | ⟨hv, h⟩ | ⟨hv, hw, h⟩
  · rcases regIndex_cases z with ⟨hz, h'⟩ | ⟨hz, h'⟩
    · exact .inl ⟨hv, hw, hz, regIndex3_ok hv hw hz⟩
    · exact .inr (.inr (.inr ⟨hv, hw, hz, by simp [regIndex3, h, h']⟩))
  · exact .inr (.inl ⟨hv, by simp [regIndex3, h]⟩)
  · exact .inr (.inr (.inl ⟨hv, hw, by simp [regIndex3, h]⟩))

/-! ### Registers -/

@[simp] theorem x_setX_self (s : State) (i : Fin 32) (v : Word) : (s.setX i v).x i = v := by
  simp [State.x, State.setX, Vector.get_eq_getElem]

theorem x_setX_ne (s : State) {i j : Fin 32} (v : Word) (h : j ≠ i) : (s.setX i v).x j = s.x j := by
  simp only [State.x, setX_regs, Vector.get_eq_getElem]
  exact Vector.getElem_set_ne _ _ (fun e => h (Fin.ext e.symm))

theorem x_eq_getElem (s : State) (n : Nat) (h : n < 32) : s.x ⟨n, h⟩ = s.regs[n] := by
  simp [State.x, Vector.get_eq_getElem]

/-! ### Arithmetic -/

theorem fits32_iff (e : Int) : fits32 e = true ↔ -2 ^ 31 ≤ e ∧ e ≤ 2 ^ 31 - 1 := by simp [fits32]

/-- Every answer of narrowing: the low 32 bits, or the overflow fault where the parameter asks for it. -/
theorem narrow_eq (m : ArithOverflow) (e : Int) :
    narrow m e = if fits32 e = false ∧ m = .fault then .error .arithmeticOverflow else .ok (to32 e) := by
  unfold narrow; cases m <;> cases fits32 e <;> rfl

theorem narrow_wrap (e : Int) : narrow .wrap e = .ok (to32 e) := by simp [narrow_eq]

theorem narrow_fits (m : ArithOverflow) (e : Int) (h : fits32 e = true) : narrow m e = .ok (to32 e) := by
  simp [narrow_eq, h]

theorem aluDiv_zero (m : ArithOverflow) (a b : Word) (h : sVal b = 0) : aluDiv m a b = .error .divideByZero := by
  simp [aluDiv, h]

theorem aluDiv_ok {m : ArithOverflow} {a b q : Word} (h : sVal b ≠ 0) (hq : narrow m (quotient a b) = .ok q) :
    aluDiv m a b = .ok (q, to32 (remainder a b)) := by
  simp [aluDiv, h, hq]

theorem aluDiv_overflow {m : ArithOverflow} {a b : Word} {f : EngineFault} (h : sVal b ≠ 0)
    (hq : narrow m (quotient a b) = .error f) : aluDiv m a b = .error f := by
  simp [aluDiv, h, hq]

/-! ### The shared instruction shapes: every answer they can give -/

/-- What `arith3` can do: it faults with nothing written, or it writes one register and the next `pc`. -/
theorem arith3_next {alu : Word → Word → Except EngineFault Word} {rs1 rs2 rd : Byte} {s t : State}
    (h : arith3 alu rs1 rs2 rd s = .next t) :
    (∃ f, t = s.raiseFault f) ∨
    ∃ (h1 : rs1.toNat < 32) (h2 : rs2.toNat < 32) (hd : rd.toNat < 32) (v : Word),
      alu (s.x ⟨_, h1⟩) (s.x ⟨_, h2⟩) = .ok v ∧ t = (s.setX ⟨_, hd⟩ v).setPc (s.next 4) := by
  rcases commit_next h with hr | ⟨f, -, rfl⟩
  · right
    rcases regIndex3_cases rs1 rs2 rd with ⟨h1, h2, hd, e⟩ | ⟨-, e⟩ | ⟨-, -, e⟩ | ⟨-, -, -, e⟩ <;>
      rw [e] at hr <;> simp only [reduceCtorEq] at hr
    cases hv : alu (s.x ⟨_, h1⟩) (s.x ⟨_, h2⟩) with
    | error f => simp [hv] at hr
    | ok v => exact ⟨h1, h2, hd, v, hv, by simpa [hv] using hr.symm⟩
  · exact .inl ⟨f, rfl⟩

/-- What Div can do. -/
theorem execDivAt_next {m : ArithOverflow} {rs1 rs2 rd : Byte} {s t : State} (h : execDivAt m rs1 rs2 rd s = .next t) :
    (∃ f, t = s.raiseFault f) ∨
    ∃ (h1 : rs1.toNat < 32) (h2 : rs2.toNat < 32) (hd : rd.toNat < 32) (q r : Word),
      aluDiv m (s.x ⟨_, h1⟩) (s.x ⟨_, h2⟩) = .ok (q, r) ∧
        t = ((s.setX ⟨_, hd⟩ q).setRem r).setPc (s.next 4) := by
  rcases commit_next h with hr | ⟨f, -, rfl⟩
  · right
    rcases regIndex3_cases rs1 rs2 rd with ⟨h1, h2, hd, e⟩ | ⟨-, e⟩ | ⟨-, -, e⟩ | ⟨-, -, -, e⟩ <;>
      rw [e] at hr <;> simp only [reduceCtorEq] at hr
    cases hv : aluDiv m (s.x ⟨_, h1⟩) (s.x ⟨_, h2⟩) with
    | error f => simp [hv] at hr
    | ok qr =>
      obtain ⟨q, r⟩ := qr
      exact ⟨h1, h2, hd, q, r, hv, by simpa [hv] using hr.symm⟩
  · exact .inl ⟨f, rfl⟩

/-- What a comparison can do. -/
theorem compare2_next {rel : Word → Word → Bool} {r1 r2 : Byte} {s t : State} (h : compare2 rel r1 r2 s = .next t) :
    (∃ f, t = s.raiseFault f) ∨
    ∃ (h1 : r1.toNat < 32) (h2 : r2.toNat < 32),
      t = (s.setEq (rel (s.x ⟨_, h1⟩) (s.x ⟨_, h2⟩))).setPc (s.next 4) := by
  rcases commit_next h with hr | ⟨f, -, rfl⟩
  · right
    rcases regIndex2_cases r1 r2 with ⟨h1, h2, e⟩ | ⟨-, e⟩ | ⟨-, -, e⟩ <;>
      rw [e] at hr <;> simp only [reduceCtorEq] at hr
    exact ⟨h1, h2, by simpa using hr.symm⟩
  · exact .inl ⟨f, rfl⟩

/-- What Load can do. -/
theorem execLoad_next {rd : Byte} {imm : Half} {s t : State} (h : execLoad rd imm s = .next t) :
    (∃ f, t = s.raiseFault f) ∨
    ∃ hd : rd.toNat < 32, t = (s.setX ⟨_, hd⟩ (zext16 imm)).setPc (s.next 4) := by
  rcases commit_next h with hr | ⟨f, -, rfl⟩
  · right
    rcases regIndex_cases rd with ⟨hd, e⟩ | ⟨-, e⟩ <;> rw [e] at hr <;> simp only [reduceCtorEq] at hr
    exact ⟨hd, by simpa using hr.symm⟩
  · exact .inl ⟨f, rfl⟩

/-- What a range-checked jump can do. -/
theorem jumpTo_ok {s u : State} {t : Nat} (h : jumpTo s t = .ok u) : t ≤ s.len ∧ u = s.setPc t := by
  unfold jumpTo at h
  split at h
  · cases h
  · exact ⟨by omega, by simpa using h.symm⟩

theorem jumpTo_of_le {s : State} {t : Nat} (h : t ≤ s.len) : jumpTo s t = .ok (s.setPc t) := by
  simp [jumpTo, Nat.not_lt.2 h]

theorem jumpTo_of_gt {s : State} {t : Nat} (h : s.len < t) : jumpTo s t = .error (.pcOutOfRange t) := by
  simp [jumpTo, h]

/-- What Jmp can do: fault, or set `pc` inside the buffer. -/
theorem execJmp_next {rt : Byte} {s t : State} (h : execJmp rt s = .next t) :
    (∃ f, t = s.raiseFault f) ∨ ∃ n, n ≤ s.len ∧ t = s.setPc n := by
  rcases commit_next h with hr | ⟨f, -, rfl⟩
  · right
    rcases regIndex_cases rt with ⟨hd, e⟩ | ⟨-, e⟩ <;> rw [e] at hr <;> simp only [reduceCtorEq] at hr
    exact ⟨_, jumpTo_ok hr⟩
  · exact .inl ⟨f, rfl⟩

/-- What Jmpf can do. -/
theorem execJmpf_next {rt : Byte} {s t : State} (h : execJmpf rt s = .next t) :
    (∃ f, t = s.raiseFault f) ∨ ∃ n, n ≤ s.len ∧ t = s.setPc n := by
  rcases commit_next h with hr | ⟨f, -, rfl⟩
  · right
    rcases regIndex_cases rt with ⟨hd, e⟩ | ⟨-, e⟩ <;> rw [e] at hr <;> simp only [reduceCtorEq] at hr
    split at hr
    · cases hr
    · exact ⟨_, jumpTo_ok hr⟩
  · exact .inl ⟨f, rfl⟩

/-- What Jmpb can do. -/
theorem execJmpb_next {rt : Byte} {s t : State} (h : execJmpb rt s = .next t) :
    (∃ f, t = s.raiseFault f) ∨ ∃ n, n ≤ s.next 2 ∧ t = s.setPc n := by
  rcases commit_next h with hr | ⟨f, -, rfl⟩
  · right
    rcases regIndex_cases rt with ⟨hd, e⟩ | ⟨-, e⟩ <;> rw [e] at hr <;> simp only [reduceCtorEq] at hr
    split at hr
    · cases hr
    · exact ⟨_, Nat.sub_le _ _, by simpa using hr.symm⟩
  · exact .inl ⟨f, rfl⟩

/-- What Jmpe can do. -/
theorem execJmpe_next {rt : Byte} {s t : State} (h : execJmpe rt s = .next t) :
    (∃ f, t = s.raiseFault f) ∨ ∃ n, (n ≤ s.len ∨ n = s.next 2) ∧ t = s.setPc n := by
  rcases commit_next h with hr | ⟨f, -, rfl⟩
  · right
    rcases regIndex_cases rt with ⟨hd, e⟩ | ⟨-, e⟩ <;> rw [e] at hr <;> simp only [reduceCtorEq] at hr
    split at hr
    · obtain ⟨h1, h2⟩ := jumpTo_ok hr
      exact ⟨_, .inl h1, h2⟩
    · exact ⟨_, .inr rfl, by simpa using hr.symm⟩
  · exact .inl ⟨f, rfl⟩

end Sys2Proof.Machine
end

