-- ==== Sys2Proof/Laws/PerInstr.lean ====
section
/-! SUPPORT. Statements about an instruction as syntax, one lemma per constructor. -/

namespace Sys2Proof.Laws

/-- An instruction is encoded in as many bytes as the length table gives its operation (spec/30_encoding.md R44). -/
def EncodeLength.Statement (i : Instr) : Prop := ∀ t : OpTable, (encodeAt t i).length = i.ilen

theorem EncodeLength.load (rd : Byte) (imm : Half) : EncodeLength.Statement (.load rd imm) := fun _ => rfl
theorem EncodeLength.add (rs1 rs2 rd : Byte) : EncodeLength.Statement (.add rs1 rs2 rd) := fun _ => rfl
theorem EncodeLength.sub (rs1 rs2 rd : Byte) : EncodeLength.Statement (.sub rs1 rs2 rd) := fun _ => rfl
theorem EncodeLength.mul (rs1 rs2 rd : Byte) : EncodeLength.Statement (.mul rs1 rs2 rd) := fun _ => rfl
theorem EncodeLength.div (rs1 rs2 rd : Byte) : EncodeLength.Statement (.div rs1 rs2 rd) := fun _ => rfl
theorem EncodeLength.jmp (rt : Byte) : EncodeLength.Statement (.jmp rt) := fun _ => rfl
theorem EncodeLength.jmpf (rt : Byte) : EncodeLength.Statement (.jmpf rt) := fun _ => rfl
theorem EncodeLength.jmpb (rt : Byte) : EncodeLength.Statement (.jmpb rt) := fun _ => rfl
theorem EncodeLength.eq (r1 r2 pad : Byte) : EncodeLength.Statement (.eq r1 r2 pad) := fun _ => rfl
theorem EncodeLength.neq (r1 r2 pad : Byte) : EncodeLength.Statement (.neq r1 r2 pad) := fun _ => rfl
theorem EncodeLength.gte (r1 r2 pad : Byte) : EncodeLength.Statement (.gte r1 r2 pad) := fun _ => rfl
theorem EncodeLength.lte (r1 r2 pad : Byte) : EncodeLength.Statement (.lte r1 r2 pad) := fun _ => rfl
theorem EncodeLength.lt (r1 r2 pad : Byte) : EncodeLength.Statement (.lt r1 r2 pad) := fun _ => rfl
theorem EncodeLength.gt (r1 r2 pad : Byte) : EncodeLength.Statement (.gt r1 r2 pad) := fun _ => rfl
theorem EncodeLength.jmpe (rt : Byte) : EncodeLength.Statement (.jmpe rt) := fun _ => rfl
theorem EncodeLength.halt : EncodeLength.Statement .halt := fun _ => rfl
theorem EncodeLength.illegal (code : Byte) : EncodeLength.Statement (.illegal code) := fun _ => rfl

end Sys2Proof.Laws
end

