-- ==== Sys2Proof/Laws/Step.lean ====
section
/-! SUPPORT. What the decoder, the fetch and the step skeleton can answer, said once. -/

namespace Sys2Proof

theorem decodeJ_length_one (mk : Byte → Instr) (bs : List Byte) (h : bs.length = 1) :
    ∃ v, bs = [v] ∧ decodeJ mk bs = some (mk v, []) := by
  obtain ⟨v, rfl⟩ := List.length_eq_one_iff.1 h
  exact ⟨v, rfl, rfl⟩

theorem decodeL_length_three (mk : Byte → Half → Instr) (bs : List Byte) (h : bs.length = 3) :
    ∃ v b c, bs = [v, b, c] ∧ decodeL mk bs = some (mk v (joinWord b c), []) := by
  obtain ⟨v, b, c, rfl⟩ := List.length_eq_three.1 h
  exact ⟨v, b, c, rfl, rfl⟩

theorem decodeRC_length_three (mk : Byte → Byte → Byte → Instr) (bs : List Byte) (h : bs.length = 3) :
    ∃ u v w, bs = [u, v, w] ∧ decodeRC mk bs = some (mk u v w, []) := by
  obtain ⟨u, v, w, rfl⟩ := List.length_eq_three.1 h
  exact ⟨u, v, w, rfl, rfl⟩

/-- The operand bytes of exactly the operation's length always decode, to an instruction of that operation. -/
theorem decodeOperands_of_length (b0 : Byte) (op : Opcode) (bs : List Byte) (h : bs.length = op.ilen - 1) :
    ∃ i, decodeOperands b0 op bs = some (i, []) ∧ i.op = op := by
  cases op
  case load =>
    obtain ⟨v, b, c, -, e⟩ := decodeL_length_three Instr.load bs h
    exact ⟨_, e, rfl⟩
  case jmp | jmpf | jmpb | jmpe =>
    obtain ⟨v, rfl⟩ := List.length_eq_one_iff.1 h
    exact ⟨_, rfl, rfl⟩
  case halt | illegal =>
    obtain rfl := List.length_eq_zero_iff.1 h
    exact ⟨_, rfl, rfl⟩
  all_goals
    obtain ⟨u, v, w, rfl⟩ := List.length_eq_three.1 h
    exact ⟨_, rfl, rfl⟩

/-- One whole instruction's bytes always decode, to an instruction of the operation of the first byte. -/
theorem decodeAt_of_length (t : OpTable) (b0 : Byte) (bs : List Byte)
    (h : (b0 :: bs).length = (opMap t b0).ilen) :
    ∃ i, decodeAt t (b0 :: bs) = .ok (i, []) ∧ i.op = opMap t b0 := by
  obtain ⟨i, hi, hop⟩ := decodeOperands_of_length b0 (opMap t b0) bs (by simp at h; omega)
  exact ⟨i, by simp [decodeAt, hi], hop⟩

theorem ilen_pos (op : Opcode) : 1 ≤ op.ilen := by cases op <;> decide

theorem ilen_le_four (op : Opcode) : op.ilen ≤ 4 := by cases op <;> decide

namespace Machine

/-- Every answer of the fetch: nothing left, an instruction cut short by LEN, or the bytes of one whole instruction. -/
theorem fetch_cases (t : OpTable) (s : State) :
    (s.len ≤ s.pc.toNat ∧ fetch t s = .ok .endOfBuffer) ∨
    (∃ b0, s.buf.byteAt s.pc.toNat = some b0 ∧ s.len < s.next (opMap t b0).ilen ∧
      fetch t s = .ok (.truncated (s.next (opMap t b0).ilen))) ∨
    ∃ b0 bs, s.buf.byteAt s.pc.toNat = some b0 ∧ s.next (opMap t b0).ilen ≤ s.len ∧
      (b0 :: bs).length = (opMap t b0).ilen ∧
      (∀ k (h : k < (b0 :: bs).length), s.buf.byteAt (s.pc.toNat + k) = some (b0 :: bs)[k]) ∧
      fetch t s = .ok (.bytes (b0 :: bs)) := by
  by_cases hend : s.len ≤ s.pc.toNat
  · exact .inl ⟨hend, by simp [fetch, hend]⟩
  · obtain ⟨b0, hb0⟩ := Option.isSome_iff_exists.1 ((byteAt_isSome_iff s.buf s.pc.toNat).2 (by
      simp only [State.len] at hend; omega))
    right
    by_cases hnext : s.len < s.next (opMap t b0).ilen
    · exact .inl ⟨b0, hb0, hnext, by simp [fetch, hend, memRead_of_byteAt hb0, hnext]⟩
    · right
      have hpos := ilen_pos (opMap t b0)
      obtain ⟨bs, hbs⟩ := readBytes_isOk s.buf ((opMap t b0).ilen - 1) (s.pc.toNat + 1) (by
        simp only [State.len, State.next] at hnext; omega)
      obtain ⟨hl, hk⟩ := (readBytes_eq_ok_iff _ _ _ _).1 hbs
      refine ⟨b0, bs, hb0, by omega, by simp; omega, ?_,
        by simp [fetch, hend, memRead_of_byteAt hb0, hnext, hbs]⟩
      rintro (_ | k) h
      · simpa using hb0
      · have := hk k (by simpa using h)
        simpa [Nat.add_assoc, Nat.add_comm 1 k] using this

theorem fetch_endOfBuffer (t : OpTable) {s : State} (h : s.len ≤ s.pc.toNat) :
    fetch t s = .ok .endOfBuffer := by simp [fetch, h]

theorem fetch_truncated (t : OpTable) {s : State} {b0 : Byte} (hb0 : s.buf.byteAt s.pc.toNat = some b0)
    (h : s.len < s.next (opMap t b0).ilen) : fetch t s = .ok (.truncated (s.next (opMap t b0).ilen)) := by
  have := (byteAt_isSome_iff s.buf s.pc.toNat).1 (by simp [hb0])
  have hend : ¬ s.len ≤ s.pc.toNat := by simp only [State.len]; omega
  simp [fetch, hend, memRead_of_byteAt hb0, h]

/-- The fetch of an instruction whose bytes are known. -/
theorem fetch_bytes (t : OpTable) {s : State} {b0 : Byte} {bs : List Byte}
    (hlen : (b0 :: bs).length = (opMap t b0).ilen)
    (hk : ∀ k (h : k < (b0 :: bs).length), s.buf.byteAt (s.pc.toNat + k) = some (b0 :: bs)[k]) :
    fetch t s = .ok (.bytes (b0 :: bs)) := by
  have hb0 : s.buf.byteAt s.pc.toNat = some b0 := hk 0 (Nat.succ_pos _)
  have hlast := hk bs.length (by simp)
  have hlt := (byteAt_isSome_iff s.buf (s.pc.toNat + bs.length)).1 (by simp [hlast])
  have hend : ¬ s.len ≤ s.pc.toNat := by simp only [State.len]; omega
  have hnext : ¬ s.len < s.next (opMap t b0).ilen := by
    simp only [State.len, State.next, ← hlen, List.length_cons]; omega
  have hread : s.buf.readBytes (s.pc.toNat + 1) ((opMap t b0).ilen - 1) = .ok bs := by
    refine (readBytes_eq_ok_iff _ _ _ _).2 ⟨by simp at hlen; omega, fun k h => ?_⟩
    have := hk (k + 1) (by simpa using h)
    simpa [Nat.add_assoc, Nat.add_comm 1 k] using this
  simp [fetch, hend, memRead_of_byteAt hb0, hnext, hread]

/-- Everything a step can do, for any execute stage: a halted engine stays as it is; the end of the buffer halts; an
instruction cut short faults; a whole instruction is executed. -/
theorem stepWith_cases (t : OpTable) (ex : Instr → State → Outcome) (s : State) :
    ((∃ c, s.run = .halted c) ∧ stepWith t ex s = .next s) ∨
    (s.run = .running ∧ s.len ≤ s.pc.toNat ∧ stepWith t ex s = .next (s.haltWith .endOfBuffer)) ∨
    (∃ b0, s.run = .running ∧ s.buf.byteAt s.pc.toNat = some b0 ∧ s.len < s.next (opMap t b0).ilen ∧
      stepWith t ex s = .next (s.raiseFault (.pcOutOfRange (s.next (opMap t b0).ilen)))) ∨
    ∃ b0 bs i, s.run = .running ∧ s.buf.byteAt s.pc.toNat = some b0 ∧ s.next (opMap t b0).ilen ≤ s.len ∧
      (b0 :: bs).length = (opMap t b0).ilen ∧
      (∀ k (h : k < (b0 :: bs).length), s.buf.byteAt (s.pc.toNat + k) = some (b0 :: bs)[k]) ∧
      decodeAt t (b0 :: bs) = .ok (i, []) ∧ i.op = opMap t b0 ∧ stepWith t ex s = ex i s := by
  cases hrun : s.run with
  | halted c => exact .inl ⟨⟨c, rfl⟩, by simp [stepWith, hrun]⟩
  | running =>
    right
    rcases fetch_cases t s with ⟨h, e⟩ | ⟨b0, hb, h, e⟩ | ⟨b0, bs, hb, h, hl, hk, e⟩
    · exact .inl ⟨rfl, h, by simp [stepWith, hrun, e]⟩
    · exact .inr (.inl ⟨b0, rfl, hb, h, by simp [stepWith, hrun, e]⟩)
    · obtain ⟨i, hd, hop⟩ := decodeAt_of_length t b0 bs hl
      exact .inr (.inr ⟨b0, bs, i, rfl, hb, h, hl, hk, hd, hop, by simp [stepWith, hrun, e, hd]⟩)

theorem exec_eq_execAt (i : Instr) (s : State) : exec i s = execAt arithOverflow i s := by cases i <;> rfl

/-- `step` is the parametric machine at the spec's defaults. -/
theorem step_eq_stepAt (s : State) : step s = stepAt defaultParams s := by
  have : (exec : Instr → State → Outcome) = execAt arithOverflow := by funext i s; exact exec_eq_execAt i s
  simp only [step, stepAt, defaultParams, this]

/-- The same equality between functions, for the operations written over a step. -/
theorem step_eq_stepAt_fun : step = stepAt defaultParams := funext step_eq_stepAt

/-- The result that goes with a step's next state. -/
theorem resultIn_next {f : State → Outcome} {s t : State} (h : f s = .next t) :
    resultIn f s = .next (t, resultOf t.run) := by simp [resultIn, h]

/-- A run goes on after a step that returns Continue. -/
theorem runIn_succ_continue {f : State → Outcome} {s t : State} (k : Nat)
    (h : resultIn f s = .next (t, .continue)) : runIn f (k + 1) s = runIn f k t := by simp [runIn, h]

/-- A run ends with the first result that is not Continue. -/
theorem runIn_succ_stop {f : State → Outcome} {s t : State} {r : StepResult} (k : Nat)
    (h : resultIn f s = .next (t, r)) (hr : r ≠ .continue) : runIn f (k + 1) s = .next (t, r) := by
  cases r <;> simp_all [runIn]

theorem reset_eq_resetAt : State.reset = resetAt defaultParams := rfl

end Machine

end Sys2Proof
end

