-- ==== Sys2Proof/Tests/Slice0.lean ====
section
/-! SUPPORT. Tests of the model: ill-formed terms, words written out from the spec's encodings, single steps with the
expected values of spec/95_test_vectors.md, and for every statement with hypotheses a state and operands that meet
them. -/

namespace Sys2Proof.Tests

open Sys2Proof Sys2Proof.Machine

/-! ### Small states -/

/-- A reset engine with a program loaded and `x[0]`, `x[1]` set. -/
def st (bytes : List Byte) (x0 x1 : Word) : State :=
  (({ State.reset with buf := Memory.ofBytes bytes } : State).setX 0 x0).setX 1 x1

/-- The state after one step. -/
def after (s : State) : State :=
  match step s with
  | .next t => t
  | .fault _ => s
  | .refused _ => s

/-- The state after one step with ARITH_OVERFLOW = fault. -/
def afterFaulting (s : State) : State :=
  match stepAt { defaultParams with overflow := .fault } s with
  | .next t => t
  | .fault _ => s
  | .refused _ => s

/-! ### WellFormed refuses what no bytes spell, and index bytes of no register -/

theorem test_wellFormed_refuses_mapped_illegal : (Instr.illegal 15#8).wellFormed = false := by decide
theorem test_wellFormed_accepts_unmapped_illegal : (Instr.illegal 16#8).wellFormed = true := by decide
theorem test_regsValid_refuses_third_index : (Instr.add 0#8 31#8 32#8).regsValid = false := by decide
theorem test_regsValid_refuses_load_index : (Instr.load 255#8 0#16).regsValid = false := by decide
theorem test_regsValid_ignores_pad : (Instr.lt 31#8 0#8 255#8).regsValid = true := by decide

/-! ### Decoding: one word written out from R38 to R42 and R50 for each operation -/

theorem test_decode_load : decode [0x00, 0x1F, 0x12, 0x34] = .ok (.load 31#8 0x1234#16, []) := by decide
theorem test_decode_add : decode [0x01, 0x00, 0x01, 0x02] = .ok (.add 0#8 1#8 2#8, []) := by decide
theorem test_decode_sub : decode [0x02, 0x01, 0x00, 0x02] = .ok (.sub 1#8 0#8 2#8, []) := by decide
theorem test_decode_mul : decode [0x03, 0x00, 0x01, 0x04] = .ok (.mul 0#8 1#8 4#8, []) := by decide
theorem test_decode_div : decode [0x04, 0x02, 0x03, 0x04] = .ok (.div 2#8 3#8 4#8, []) := by decide
theorem test_decode_jmp : decode [0x05, 0x07, 0x00, 0x00] = .ok (.jmp 7#8, [0, 0]) := by decide
theorem test_decode_jmpf : decode [0x06, 0x03] = .ok (.jmpf 3#8, []) := by decide
theorem test_decode_jmpb : decode [0x07, 0x05] = .ok (.jmpb 5#8, []) := by decide
theorem test_decode_eq : decode [0x08, 0x00, 0x03, 0x00] = .ok (.eq 0#8 3#8 0#8, []) := by decide
theorem test_decode_neq : decode [0x09, 0x00, 0x01, 0x7F] = .ok (.neq 0#8 1#8 0x7F#8, []) := by decide
theorem test_decode_gte : decode [0x0A, 0x04, 0x05, 0x00] = .ok (.gte 4#8 5#8 0#8, []) := by decide
theorem test_decode_lte : decode [0x0B, 0x04, 0x05, 0x00] = .ok (.lte 4#8 5#8 0#8, []) := by decide
theorem test_decode_lt : decode [0x0C, 0x02, 0x01, 0xFF] = .ok (.lt 2#8 1#8 0xFF#8, []) := by decide
theorem test_decode_gt : decode [0x0D, 0x06, 0x07, 0x00] = .ok (.gt 6#8 7#8 0#8, []) := by decide
theorem test_decode_jmpe : decode [0x0E, 0x04] = .ok (.jmpe 4#8, []) := by decide
theorem test_decode_halt : decode [0x0F, 0x0F] = .ok (.halt, [0x0F]) := by decide
theorem test_decode_illegal_each_row : decode [0x10] = .ok (.illegal 0x10#8, []) ∧
    decode [0x20] = .ok (.illegal 0x20#8, []) ∧ decode [0x40] = .ok (.illegal 0x40#8, []) ∧
    decode [0xFE] = .ok (.illegal 0xFE#8, []) := by decide
theorem test_decode_missing_bytes : decode [] = .error .noOpcode ∧ decode [0x0C, 0x00, 0x01] = .error (.truncated 4) ∧
    decode [0x05] = .error (.truncated 2) := by decide
theorem test_encode_load : encode (.load 31#8 0x1234#16) = [0x00, 0x1F, 0x12, 0x34] := by decide
theorem test_decodeTableWord : decodeTableWord 32 0x34121F00 = some (.load 31#8 0x1234#16) ∧
    decodeTableWord 16 0x0705 = some (.jmp 7#8) ∧ decodeTableWord 8 0xFE = some (.illegal 0xFE#8) := by decide

/-! ### Single steps, expected values from spec/95_test_vectors.md -/

-- V-L3, V-L4, V-L5
theorem test_load_is_zero_extended : (after (st [0x00, 0x1F, 0x80, 0x00] 0 0)).x 31 = 0x00008000#32 := by decide
theorem test_load_bad_index : (after (st [0x00, 0x20, 0x00, 0x01] 0 0)).run =
    .halted (.fault (.registerIndexOutOfRange 32#8)) ∧ (after (st [0x00, 0x20, 0x00, 0x01] 0 0)).pc = 0 := by decide
-- V-A2, V-A16
theorem test_add_wraps_or_faults : (after (st [0x01, 0, 1, 2] 0x7FFFFFFF 1)).x 2 = 0x80000000#32 ∧
    (afterFaulting (st [0x01, 0, 1, 2] 0x7FFFFFFF 1)).run = .halted (.fault .arithmeticOverflow) := by decide
theorem test_add_first_bad_index : (after (st [0x01, 0x21, 0x00, 0x22] 0 0)).run =
    .halted (.fault (.registerIndexOutOfRange 0x21#8)) := by decide
-- V-A7, V-A8
theorem test_sub_order : (after (st [0x02, 0, 1, 2] 0 1)).x 2 = 0xFFFFFFFF#32 := by decide
theorem test_sub_overflow : (after (st [0x02, 0, 1, 2] 0 0x80000000)).x 2 = 0x80000000#32 := by decide
-- V-A11, V-A12
theorem test_mul_low_half : (after (st [0x03, 0, 1, 2] 65535 65535)).x 2 = 0xFFFE0001#32 := by decide
theorem test_mul_signed : (after (st [0x03, 0, 1, 2] (-3) 5)).x 2 = 0xFFFFFFF1#32 := by decide
-- V-D9, V-D12
theorem test_div_rounds_toward_zero : (after (st [0x04, 0, 1, 2] 0x80000000 3)).x 2 = 0xD5555556#32 ∧
    (after (st [0x04, 0, 1, 2] 0x80000000 3)).rem = 0xFFFFFFFE#32 := by decide
theorem test_div_by_zero : (after (st [0x04, 0, 1, 2] 5 0)).run = .halted (.fault .divideByZero) ∧
    (after (st [0x04, 0, 1, 2] 5 0)).pc = 0 := by decide
-- V-J2, V-J3
theorem test_jmp_to_len : (after (st [0x05, 0, 0, 0] 4 0)).pc = 4#32 := by decide
theorem test_jmp_past_len : (after (st [0x05, 0, 0, 0] 5 0)).run = .halted (.fault (.pcOutOfRange 5)) := by decide
-- V-J6, V-J10 and V-J11
theorem test_jmpf_from_next : (after (st [0x06, 0, 0, 0, 0x05, 0, 0, 0] 2 0)).pc = 4#32 := by decide
theorem test_jmpf_range_and_overflow :
    (after (st [0x06, 0, 0, 0] 0xFFFFFFFD 0)).run = .halted (.fault (.pcOutOfRange 4294967295)) ∧
    (after (st [0x06, 0, 0, 0] 0xFFFFFFFE 0)).run = .halted (.fault (.jumpOffsetOutOfRange .overflow)) := by decide
-- V-J16, V-J17
theorem test_jmpb_to_zero : (after { st [0x0F, 0, 0, 0, 0x07, 0] 6 0 with pc := 4 }).pc = 0#32 := by decide
theorem test_jmpb_underflow : (after { st [0x0F, 0, 0, 0, 0x07, 0] 7 0 with pc := 4 }).run =
    .halted (.fault (.jumpOffsetOutOfRange .underflow)) := by decide
-- V-C1, rows -1 against 1 and 10 against 10; V-C2
theorem test_eq : (after (st [0x08, 0, 1, 0] 10 10)).eqFlag = true ∧
    (after (st [0x08, 0, 1, 0] (-1) 1)).eqFlag = false := by decide
theorem test_neq : (after (st [0x09, 0, 1, 0] 10 10)).eqFlag = false ∧
    (after (st [0x09, 0, 1, 0] (-1) 1)).eqFlag = true := by decide
theorem test_gte : (after (st [0x0A, 0, 1, 0] 10 10)).eqFlag = true ∧
    (after (st [0x0A, 0, 1, 0] (-1) 1)).eqFlag = false := by decide
theorem test_lte : (after (st [0x0B, 0, 1, 0] 10 10)).eqFlag = true ∧
    (after (st [0x0B, 0, 1, 0] 1 (-1))).eqFlag = false := by decide
theorem test_lt : (after (st [0x0C, 0, 1, 0xFF] (-1) 1)).eqFlag = true ∧
    (after (st [0x0C, 0, 1, 0xFF] 10 10)).eqFlag = false := by decide
theorem test_gt : (after (st [0x0D, 0, 1, 0] 1 (-1))).eqFlag = true ∧
    (after (st [0x0D, 0, 1, 0] 10 10)).eqFlag = false := by decide
-- V-E1, V-E2 and V-E6
theorem test_jmpe_taken : (after { st [0x0E, 0, 0, 0, 0, 0, 0, 0] 7 0 with eqFlag := true }).pc = 7#32 := by decide
theorem test_jmpe_not_taken : (after (st [0x0E, 0, 0, 0, 0, 0, 0, 0] 7 0)).pc = 2#32 ∧
    (after (st [0x0E, 0x20] 0 0)).run = .halted (.fault (.registerIndexOutOfRange 32#8)) := by decide
-- V-H1 and V-H4
theorem test_halt : (after (st [0x0F, 0x0F] 0 0)).pc = 1#32 ∧
    (after (st [0x0F, 0x0F] 0 0)).notices = [.haltNotice] := by decide
theorem test_halt_stays : after (after (st [0x0F, 0x0F] 0 0)) = after (st [0x0F, 0x0F] 0 0) := by decide
-- V-H2, V-H3
theorem test_illegal : (after (st [0xFE] 0 0)).run = .halted .illegalOp ∧ (after (st [0xFE] 0 0)).pc = 1#32 := by decide
theorem test_illegal_first_unmapped : (after (st [0x10] 0 0)).notices = [.illegalNotice] := by decide
-- V-H5, V-L6
theorem test_empty_buffer : (after State.reset).run = .halted .endOfBuffer := by decide
theorem test_truncated : (after (st [0x00, 0x00, 0x12] 0 0)).run = .halted (.fault (.pcOutOfRange 4)) := by decide
-- the host's one-instruction placing, on a reset engine
theorem test_withFetchWord : (after (State.reset.withFetchWord 32 0x34121F00)).x 31 = 0x1234#32 := by decide

/-! ### Witnesses: states and operands that meet the hypotheses of each statement -/

/-- A second OPMAP, the default one read backward. -/
def reversedTable : OpTable := definedOps.reverse

theorem witness_DecodeInvertsEncode : reversedTable.valid ∧ (Instr.illegal 16#8).wellFormed = true ∧
    (Instr.load 255#8 0xFFFF#16).wellFormed = true := by decide

theorem witness_EncodeInvertsDecode : reversedTable.valid ∧
    decodeAt reversedTable [0x00, 0x0F] = .ok (.halt, [0x0F]) ∧
    decodeAt opTable [0xFF] = .ok (.illegal 0xFF#8, []) := by decide

theorem witness_UnmappedBytesExecuteAsIllegal : opTable.valid ∧ 16 ≤ (16#8 : Byte).toNat ∧
    16 ≤ (255#8 : Byte).toNat := by decide

theorem witness_OpcodeMapIsTotalAndOneToOne : reversedTable.valid ∧
    decodeAt reversedTable [0x0F, 1, 2, 3] = .ok (.load 1#8 0x0203#16, []) := by decide

theorem witness_PlacedTableWordRuns : State.reset.buf.wf ∧ decodeTableWord 8 0x0F = some .halt ∧
    State.reset.pc.toNat + 4 < 2 ^ 32 := by decide

theorem witness_StepRunsTheDecodedInstruction : (st [0x05, 0x01] 0 0).run = .running ∧
    (st [0x05, 0x01] 0 0).bytesAt 0 [0x05, 0x01] ∧ decode [0x05, 0x01] = .ok (.jmp 1#8, []) := by decide

theorem witness_StepHaltsAtTheEndOfTheBuffer : State.reset.run = .running ∧ State.reset.len ≤ State.reset.pc.toNat ∧
    ({ st [0x0F] 0 0 with pc := 1 } : State).len ≤ 1 := by decide

theorem witness_StepFaultsOnATruncatedInstruction : (st [0x00, 1, 2] 0 0).run = .running ∧
    (st [0x00, 1, 2] 0 0).buf.byteAt 0 = some 0x00 ∧ (st [0x00, 1, 2] 0 0).len < 0 + (opMap opTable 0x00).ilen ∧
    (st [0x05] 0 0).len < 0 + (opMap opTable 0x05).ilen := by decide

theorem witness_HaltedEngineStepsToItself : (after (st [0x0F] 0 0)).run = .halted .haltOp := by decide

theorem witness_StepKeepsWellFormedStates : (st [0x05, 0] 2 0).wf ∧ step (st [0x05, 0] 2 0) =
    .next { st [0x05, 0] 2 0 with pc := 2 } := ⟨by decide, by rfl⟩

theorem witness_ResetAndLoadAreWellFormed :
    loadProgram [0x0F, 0] State.reset = some { State.reset with buf := ⟨[(0, 0x0F)], 2⟩ } := by decide

theorem witness_ReachableStatesAreWellFormed : Reachable State.reset ∧
    Reachable { State.reset with buf := ⟨[(0, 0x0F)], 2⟩ } ∧ ReachableAt defaultParams State.reset :=
  ⟨.powerOn, .loadProgram _ _ _ .powerOn witness_ResetAndLoadAreWellFormed, .powerOn⟩

theorem witness_StepNeverStoresAndReadsOnlyItsOwnBytes :
    stepAt defaultParams (st [0x05, 0, 7] 3 0) = .next { st [0x05, 0, 7] 3 0 with pc := 3 } ∧
    (Memory.ofBytes [0x05, 0, 9]).len = (st [0x05, 0, 7] 3 0).buf.len ∧
    (∀ k, k < 2 → (Memory.ofBytes [0x05, 0, 9]).byteAt (0 + k) = (st [0x05, 0, 7] 3 0).buf.byteAt (0 + k)) ∧
    Memory.ofBytes [0x05, 0, 9] ≠ (st [0x05, 0, 7] 3 0).buf := ⟨by rfl, by decide, by decide, by decide⟩

theorem witness_StepDoesNotDependOnTheNumbering : opTable.valid ∧ reversedTable.valid ∧
    (Instr.jmp 0#8).wellFormed = true ∧ (st [0x05, 0] 1 0).bytesAt 0 (encodeAt opTable (.jmp 0#8)) ∧
    (st [0x0A, 0] 1 0).bytesAt 0 (encodeAt reversedTable (.jmp 0#8)) ∧
    (st [0x05, 0] 1 0).buf.len = (st [0x0A, 0] 1 0).buf.len := by decide

/-- Load: cut short by one byte; the first bad index; the last good one. -/
theorem witness_LoadStepFollowsItsRule :
    ((st [0, 31, 1] 0 0).run = .running ∧ (st [0, 31, 1] 0 0).buf.byteAt 0 = some 0 ∧ opMap opTable 0 = .load ∧
      (st [0, 31, 1] 0 0).len < 0 + 4) ∧
    ((st [0, 32, 1, 2] 0 0).bytesAt 0 [0, 32, 1, 2] ∧ 32 ≤ (32#8 : Byte).toNat) ∧
    ((st [0, 31, 1, 2] 0 0).bytesAt 0 [0, 31, 1, 2] ∧ (31#8 : Byte).toNat < 32) := by decide

/-- Add, Sub, Mul: cut short; a bad last index; the largest sum that fits and the smallest that does not. -/
theorem witness_AddSubMulStepsFollowTheirRules :
    ((st [1, 0, 1] 0 0).buf.byteAt 0 = some 1 ∧ opMap opTable 1 = .add ∧ (st [1, 0, 1] 0 0).len < 0 + 4) ∧
    ((st [2, 0, 1, 32] 0 0).bytesAt 0 [2, 0, 1, 32] ∧
      [(0 : Byte), 1, 32].find? (fun b => decide (32 ≤ b.toNat)) = some 32) ∧
    ((st [1, 0, 1, 2] 0x7FFFFFFE 1).bytesAt 0 [1, 0, 1, 2] ∧
      (0x7FFFFFFE#32).toInt + (1#32).toInt = 2 ^ 31 - 1 ∧ (0x7FFFFFFF#32).toInt + (1#32).toInt = 2 ^ 31) ∧
    defaultParams.overflow = .wrap ∧ ({ defaultParams with overflow := .fault } : Params).overflow = .fault := by decide

/-- Div: a zero divisor; an ordinary quotient; the one quotient that does not fit. -/
theorem witness_DivStepFollowsItsRule :
    ((st [4, 0, 1] 0 0).buf.byteAt 0 = some 4 ∧ opMap opTable 4 = .div ∧ (st [4, 0, 1] 0 0).len < 0 + 4) ∧
    ((st [4, 0, 32, 2] 0 0).bytesAt 0 [4, 0, 32, 2] ∧
      [(0 : Byte), 32, 2].find? (fun b => decide (32 ≤ b.toNat)) = some 32) ∧
    ((st [4, 0, 1, 2] 5 0).bytesAt 0 [4, 0, 1, 2] ∧ (st [4, 0, 1, 2] 5 0).regs[1].toInt = 0) ∧
    ((st [4, 0, 1, 2] (-7) 2).regs[1].toInt ≠ 0 ∧ (-7 : Int).tdiv 2 = -3) ∧
    ((st [4, 0, 1, 2] 0x80000000 (-1)).regs[0].toInt.tdiv (st [4, 0, 1, 2] 0x80000000 (-1)).regs[1].toInt = 2 ^ 31) :=
  by decide

/-- Jmp: cut short; a bad index; a target one past LEN and a target of LEN. -/
theorem witness_JmpStepFollowsItsRule :
    ((st [5] 0 0).buf.byteAt 0 = some 5 ∧ opMap opTable 5 = .jmp ∧ (st [5] 0 0).len < 0 + 2) ∧
    ((st [5, 32] 0 0).bytesAt 0 [5, 32] ∧ 32 ≤ (32#8 : Byte).toNat) ∧
    ((st [5, 0] 3 0).bytesAt 0 [5, 0] ∧ (st [5, 0] 3 0).len < (st [5, 0] 3 0).regs[0].toNat) ∧
    ((st [5, 0] 2 0).regs[0].toNat = (st [5, 0] 2 0).len) := by decide

/-- Jmpf: a sum of 2^32; a sum of 2^32 - 1; a sum of LEN. -/
theorem witness_JmpfStepFollowsItsRule :
    ((st [6] 0 0).buf.byteAt 0 = some 6 ∧ opMap opTable 6 = .jmpf ∧ (st [6] 0 0).len < 0 + 2) ∧
    ((st [6, 32] 0 0).bytesAt 0 [6, 32]) ∧
    ((st [6, 0] 0xFFFFFFFE 0).bytesAt 0 [6, 0] ∧ 0 + 2 + (st [6, 0] 0xFFFFFFFE 0).regs[0].toNat = 2 ^ 32) ∧
    (0 + 2 + (st [6, 0] 0xFFFFFFFD 0).regs[0].toNat = 2 ^ 32 - 1 ∧ (st [6, 0] 0 0).len < 2 ^ 32 - 1) ∧
    (0 + 2 + (st [6, 0] 0 0).regs[0].toNat = (st [6, 0] 0 0).len) := by decide

/-- Jmpb: a distance one past `next`, and a distance of `next`. -/
theorem witness_JmpbStepFollowsItsRule :
    ((st [7] 0 0).buf.byteAt 0 = some 7 ∧ opMap opTable 7 = .jmpb ∧ (st [7] 0 0).len < 0 + 2) ∧
    ((st [7, 32] 0 0).bytesAt 0 [7, 32]) ∧
    ((st [7, 0] 3 0).bytesAt 0 [7, 0] ∧ 0 + 2 < (st [7, 0] 3 0).regs[0].toNat) ∧
    ((st [7, 0] 2 0).regs[0].toNat = 0 + 2) := by decide

/-- Comparisons: cut short by the pad byte; a bad second index; both indices 31 and a pad of 255. -/
theorem witness_ComparisonStepsFollowTheirRules :
    ((st [8, 0, 1] 0 0).buf.byteAt 0 = some 8 ∧ opMap opTable 8 = .eq ∧ (st [8, 0, 1] 0 0).len < 0 + 4) ∧
    ((st [0x0D, 0, 32, 0] 0 0).bytesAt 0 [0x0D, 0, 32, 0] ∧
      [(0 : Byte), 32].find? (fun b => decide (32 ≤ b.toNat)) = some 32) ∧
    ((st [0x0C, 31, 31, 255] 0 0).bytesAt 0 [0x0C, 31, 31, 255] ∧ opMap opTable 0x0C = .lt) := by decide

/-- Jmpe: taken one past LEN, taken to LEN, and not taken. -/
theorem witness_JmpeStepFollowsItsRule :
    ((st [0x0E] 0 0).buf.byteAt 0 = some 0x0E ∧ opMap opTable 0x0E = .jmpe ∧ (st [0x0E] 0 0).len < 0 + 2) ∧
    ((st [0x0E, 32] 0 0).bytesAt 0 [0x0E, 32]) ∧
    (({ st [0x0E, 0] 3 0 with eqFlag := true } : State).bytesAt 0 [0x0E, 0] ∧
      (st [0x0E, 0] 3 0).len < (st [0x0E, 0] 3 0).regs[0].toNat) ∧
    ((st [0x0E, 0] 2 0).regs[0].toNat = (st [0x0E, 0] 2 0).len) ∧ (st [0x0E, 0] 3 0).eqFlag = false := by decide

theorem witness_HaltAndIllegalStepsFollowTheirRules :
    ((st [0x0F] 0 0).run = .running ∧ (st [0x0F] 0 0).buf.byteAt 0 = some 0x0F ∧ opMap opTable 0x0F = .halt) ∧
    ((st [0x10] 0 0).buf.byteAt 0 = some 0x10 ∧ opMap opTable 0x10 = .illegal) := by decide

/-- The hypotheses of the completion statements: index bytes 0 and 31, a nonzero divisor, targets of LEN and of 0. -/
theorem witness_LoadCompletes : (0#8 : Byte).toNat < 32 ∧ (31#8 : Byte).toNat < 32 := by decide
theorem witness_AddSubMulComplete : (0#8 : Byte).toNat < 32 ∧ (31#8 : Byte).toNat < 32 := by decide
theorem witness_DivCompletes : (st [] 7 2).regs[(1#8 : Byte).toNat] ≠ 0#32 ∧ (31#8 : Byte).toNat < 32 := by decide
theorem witness_JumpsComplete : (st [5, 0] 2 0).regs[0].toNat ≤ (st [5, 0] 2 0).len ∧
    0 + 2 + (st [6, 0] 0 0).regs[0].toNat ≤ (st [6, 0] 0 0).len ∧ (st [7, 0] 2 0).regs[0].toNat ≤ 0 + 2 := by decide
theorem witness_JmpeCompletes : ({ st [0x0E, 0] 2 0 with eqFlag := true } : State).eqFlag = true ∧
    (st [0x0E, 0] 2 0).regs[0].toNat ≤ (st [0x0E, 0] 2 0).len ∧ (st [0x0E, 0] 9 0).eqFlag = false := by decide
theorem witness_ComparisonsComplete : (31#8 : Byte).toNat < 32 ∧ (st [] (-1) 1).regs[0].toInt = -1 := by decide

theorem witness_InstructionFrame :
    exec (.div 0#8 1#8 31#8) (st [] 7 2) =
      .next { st [] 7 2 with regs := (st [] 7 2).regs.set 31 3, rem := 1, pc := 4 } ∧
    exec (.eq 0#8 1#8 0#8) (st [] 7 2) = .next { st [] 7 2 with eqFlag := false, pc := 4 } := ⟨by rfl, by rfl⟩

theorem witness_RegistersAreOrdinaryAndIndependent : (st [] 0 0).run = .running ∧
    (Instr.add 0#8 31#8 0#8).regsValid = true ∧
    execAt .wrap (.jmp 0#8) (st [] 0 0) = .next (st [] 0 0) := ⟨by decide, by decide, by rfl⟩

/-- The lowest and the highest register, the extremes of the signed range, a divisor, and targets at offset 0 and at LEN. -/
theorem witness_RegistersAreOrdinaryAndIndependent_operands :
    (31#8).toNat < 32 ∧ (0#8).toNat < 32 ∧ (31 : Fin 32) ≠ 0 ∧
    ((st [] 0x7FFFFFFF 0).x 0).toInt + ((st [] 0x7FFFFFFF 0).x 31).toInt = 2 ^ 31 - 1 ∧
    ((st [] 0x80000000 0).x 0).toInt - ((st [] 0x80000000 0).x 31).toInt = -2 ^ 31 ∧
    ((st [] 0x80000000 1).x 1).toInt ≠ 0 ∧
    ((st [] 0x80000000 1).x 0).toInt.tdiv ((st [] 0x80000000 1).x 1).toInt = -2 ^ 31 ∧
    ((st [5, 0] 2 0).x 0).toNat ≤ (st [5, 0] 2 0).len ∧
    (st [6, 31] 2 0).pc.toNat + 2 + ((st [6, 31] 2 0).x 31).toNat ≤ (st [6, 31] 2 0).len ∧
    (st [7, 0] 2 0).pc.toNat + 2 ≤ (st [7, 0] 2 0).len ∧
    ((st [7, 0] 2 0).x 0).toNat ≤ (st [7, 0] 2 0).pc.toNat + 2 ∧
    ((st [14, 0] 2 0).setEq true).eqFlag = true := by decide

theorem witness_ArithmeticIgnoresTheFlag : (Instr.div 0#8 1#8 2#8).op ∈ [Opcode.add, .sub, .mul, .div] ∧
    execAt .wrap (.div 0#8 1#8 31#8) (st [] 7 2) =
      .next { st [] 7 2 with regs := (st [] 7 2).regs.set 31 3, rem := 1, pc := 4 } ∧
    (Instr.jmp 0#8).op ≠ .div ∧ execAt .wrap (.jmp 0#8) (st [] 0 0) = .next (st [] 0 0) :=
  ⟨by decide, by rfl, by decide, by rfl⟩

theorem witness_WithoutOverflowTheParametersAgree :
    stepAt { defaultParams with overflow := .fault } (st [1, 0, 1, 0] 1 2) =
      .next { st [1, 0, 1, 0] 3 2 with pc := 4 } ∧
    ({ st [1, 0, 1, 0] 3 2 with pc := 4 } : State).run ≠ .halted (.fault .arithmeticOverflow) := ⟨by rfl, by decide⟩

theorem witness_ZeroDivisorFaults : (st [] 0 0).regs[(1#8 : Byte).toNat] = 0#32 ∧
    (st [] 5 0).regs[(1#8 : Byte).toNat] = 0#32 := by decide

theorem witness_QuotientAndRemainderRebuildTheDividend : (st [] 0x80000000 1).regs[1].toInt ≠ 0 ∧
    ¬ ((st [] 0x80000000 1).regs[0].toInt = -2 ^ 31 ∧ (st [] 0x80000000 1).regs[1].toInt = -1) := by decide

theorem witness_MinimumDividedByMinusOne : (st [] 0x80000000 (-1)).regs[0] = 0x80000000#32 ∧
    (st [] 0x80000000 (-1)).regs[1] = 0xFFFFFFFF#32 := by decide

theorem witness_FirstBadIndexFaults :
    (Instr.add 33#8 0#8 34#8).regBytes.find? (fun b => decide (32 ≤ b.toNat)) = some 33 ∧
    (Instr.jmpe 32#8).regBytes.find? (fun b => decide (32 ≤ b.toNat)) = some 32 := by decide

theorem witness_ComparisonsAreComplementary : (0#8 : Byte).toNat < 32 ∧ (31#8 : Byte).toNat < 32 := by decide

theorem witness_FaultChangesOnlyTheRunState : (st [4, 0, 1, 2] 5 0).run = .running ∧
    step (st [4, 0, 1, 2] 5 0) = .next ((st [4, 0, 1, 2] 5 0).raiseFault .divideByZero) ∧
    stepAt defaultParams (st [4, 0, 1, 2] 5 0) = .next ((st [4, 0, 1, 2] 5 0).raiseFault .divideByZero) :=
  ⟨by decide, by rfl, by rfl⟩

/-- The fifth kind, ArithmeticOverflow (2^31 - 1 + 1), under ARITH_OVERFLOW = fault and another OPMAP: the step and the run
return it (R113). -/
theorem witness_FaultChangesOnlyTheRunState_overflow :
    stepResultAt { defaultParams with overflow := .fault, opTable := reversedTable } (st [14, 0, 1, 2] 0x7FFFFFFF 1) =
      .next ((st [14, 0, 1, 2] 0x7FFFFFFF 1).raiseFault .arithmeticOverflow, .faulted .arithmeticOverflow) ∧
    runForAt { defaultParams with overflow := .fault, opTable := reversedTable } 2 (st [14, 0, 1, 2] 0x7FFFFFFF 1) =
      .next ((st [14, 0, 1, 2] 0x7FFFFFFF 1).raiseFault .arithmeticOverflow, .faulted .arithmeticOverflow) :=
  ⟨by rfl, by rfl⟩

theorem witness_FaultedEngineStaysUntilLoadOrReset :
    (after (st [4, 0, 1, 2] 5 0)).run = .halted (.fault .divideByZero) ∧
    (loadProgram [0x0F] (after (st [4, 0, 1, 2] 5 0))).isSome = true := by decide

theorem witness_PcOutOfRangeExactlyWhen : (st [5, 0] 3 0).run = .running ∧
    stepAt defaultParams (st [5, 0] 3 0) = .next ((st [5, 0] 3 0).raiseFault (.pcOutOfRange 3)) ∧
    stepAt defaultParams (st [5, 0] 2 0) = .next { st [5, 0] 2 0 with pc := 2 } := ⟨by decide, by rfl, by rfl⟩

theorem witness_JumpOffsetFaultExactlyWhen : (st [7, 0] 3 0).run = .running ∧
    stepAt defaultParams (st [7, 0] 3 0) =
      .next ((st [7, 0] 3 0).raiseFault (.jumpOffsetOutOfRange .underflow)) ∧
    stepAt defaultParams (st [6, 0] 0xFFFFFFFE 0) =
      .next ((st [6, 0] 0xFFFFFFFE 0).raiseFault (.jumpOffsetOutOfRange .overflow)) := ⟨by decide, by rfl, by rfl⟩

theorem witness_HaltCauseSaysWhatStoppedTheEngine : (st [0x0F] 0 0).run = .running ∧
    stepAt defaultParams (st [0x0F] 0 0) =
      .next { st [0x0F] 0 0 with pc := 1, run := .halted .haltOp, notices := [.haltNotice] } ∧
    defaultParams.overflow = .wrap := ⟨by decide, by rfl, by decide⟩

theorem witness_NoticesComeOnlyFromHaltAndIllegal : (st [0xFE] 0 0).run = .running ∧
    stepAt defaultParams (st [0xFE] 0 0) =
      .next { st [0xFE] 0 0 with pc := 1, run := .halted .illegalOp, notices := [.illegalNotice] } ∧
    stepAt defaultParams (after (st [0x0F] 0 0)) = .next (after (st [0x0F] 0 0)) ∧
    stepAt defaultParams State.reset = .next (State.reset.haltWith .endOfBuffer) := ⟨by decide, by rfl, by rfl, by rfl⟩

/-- The longest program, one that is a byte too long, and a short one with a zero byte in it. -/
theorem witness_LoadProgramReplacesTheBuffer : ([0x0F, 0, 7] : List Byte).length < 2 ^ 32 ∧
    (List.replicate (2 ^ 32 - 1) (0 : Byte)).length < 2 ^ 32 ∧
    2 ^ 32 ≤ (List.replicate (2 ^ 32) (0 : Byte)).length :=
  ⟨by decide, by rw [List.length_replicate]; decide, by rw [List.length_replicate]⟩

theorem witness_EqualReadingBuffersAreEqual : (Memory.ofBytes [0x0F, 0, 7]).wf ∧
    (Memory.empty.setBytes 0 [0x0F, 0, 7]).wf ∧
    Memory.empty.setBytes 0 [0x0F, 0, 7] = Memory.ofBytes [0x0F, 0, 7] := by decide

theorem witness_RunStopsAtTheFirstResult : (StepResult.halted .haltOp ≠ .continue) ∧
    (after (st [0x0F] 0 0)).run = .halted .haltOp := by decide

theorem witness_OnlyResetIsAcceptedDuringARun : Command.step ≠ .reset ∧ Command.run ≠ .reset ∧
    Command.loadProgram [] ≠ .reset ∧ Command.read ≠ .reset ∧
    loadProgram (List.replicate (2 ^ 32) 0) State.reset = none :=
  ⟨by decide, by decide, by decide, by decide,
    if_neg (by rw [List.length_replicate]; exact Nat.lt_irrefl _)⟩

/-- A running engine, a halted one, and a run whose one step halts the engine. -/
theorem witness_RunInProgressOnlyWhileRunning : (st [0x0F] 0 0).run = .running ∧
    Session.command ⟨st [0x0F] 0 0, false⟩ .run = .next (⟨st [0x0F] 0 0, true⟩, .running) ∧
    Session.tick ⟨st [0x0F] 0 0, true⟩ = .next (⟨after (st [0x0F] 0 0), false⟩, .result (.halted .haltOp)) ∧
    (after (st [0x0F] 0 0)).run = .halted .haltOp ∧
    Session.command ⟨after (st [0x0F] 0 0), false⟩ .run =
      .next (⟨after (st [0x0F] 0 0), false⟩, .result (.halted .haltOp)) :=
  ⟨by decide, by rfl, by rfl, by decide, by rfl⟩

theorem witness_HostReadsAllStateAndChangesNothing :
    ((st [0x0F] 0 0).emit .haltNotice).view = (st [0x0F] 0 0).view := by decide

theorem witness_HostFindsTheIllegalByteBehindPc : (st [0xFE] 0 0).run = .running ∧
    stepAt defaultParams (st [0xFE] 0 0) = .next (after (st [0xFE] 0 0)) ∧
    (after (st [0xFE] 0 0)).run = .halted .illegalOp ∧
    (after (st [0xFE] 0 0)).view.buf.byteAt ((after (st [0xFE] 0 0)).view.pc.toNat - 1) = some 0xFE#8 :=
  ⟨by decide, by rfl, by decide, by decide⟩

end Sys2Proof.Tests
end

section
/-! PROOFS. The instruction shapes once their index bytes are known to name registers: what each one answers, what it
writes, and that none of them raises an index fault (spec/10_state.md R10, R11). -/

namespace Sys2Proof.Machine

/-! ### Reading after an update -/

@[simp] theorem x_setPc (s : State) (n : Nat) (i : Fin 32) : (s.setPc n).x i = s.x i := rfl

@[simp] theorem x_setRem (s : State) (v : Word) (i : Fin 32) : (s.setRem v).x i = s.x i := rfl

/-- Every offset up to LEN fits the program counter. -/
theorem setPc_pc_toNat {s : State} {n : Nat} (h : n ≤ s.len) : (s.setPc n).pc.toNat = n := by
  have hlen : s.len < 2 ^ 32 := s.buf.len.isLt
  rw [setPc_pc, BitVec.toNat_ofNat, Nat.mod_eq_of_lt (by omega)]

theorem toInt_to32 {e : Int} (h : fits32 e = true) : (to32 e).toInt = e := by
  obtain ⟨hlo, hhi⟩ := (fits32_iff e).1 h
  exact BitVec.toInt_ofInt_eq_self (by decide) (by simpa using hlo) (by simp; omega)

/-- After a fitting result is written to `d`, `d` reads as that integer and every other register as before. -/
theorem setX_to32_reads (s : State) (d : Fin 32) {e : Int} (h : fits32 e = true) :
    ((s.setX d (to32 e)).x d).toInt = e ∧ ∀ j, j ≠ d → (s.setX d (to32 e)).x j = s.x j :=
  ⟨by rw [x_setX_self, toInt_to32 h], fun _ hj => x_setX_ne s _ hj⟩

/-! ### The shapes on indices that name registers -/

theorem execLoad_of_valid {rd : Byte} (imm : Half) (s : State) (h : rd.toNat < 32) :
    execLoad rd imm s = .next ((s.setX ⟨rd.toNat, h⟩ (zext16 imm)).setPc (s.next 4)) := by
  simp [execLoad, regIndex_ok h]

theorem arith3_of_valid (alu : Word → Word → Except EngineFault Word) {rs1 rs2 rd : Byte} (s : State)
    (h1 : rs1.toNat < 32) (h2 : rs2.toNat < 32) (h : rd.toNat < 32) :
    arith3 alu rs1 rs2 rd s = commit s ((alu (s.x ⟨rs1.toNat, h1⟩) (s.x ⟨rs2.toNat, h2⟩)).map
      fun v => (s.setX ⟨rd.toNat, h⟩ v).setPc (s.next 4)) := by
  simp only [arith3, regIndex3_ok h1 h2 h]
  cases alu (s.x ⟨rs1.toNat, h1⟩) (s.x ⟨rs2.toNat, h2⟩) <;> rfl

theorem execDivAt_of_valid (m : ArithOverflow) {rs1 rs2 rd : Byte} (s : State)
    (h1 : rs1.toNat < 32) (h2 : rs2.toNat < 32) (h : rd.toNat < 32) :
    execDivAt m rs1 rs2 rd s = commit s ((aluDiv m (s.x ⟨rs1.toNat, h1⟩) (s.x ⟨rs2.toNat, h2⟩)).map
      fun qr => ((s.setX ⟨rd.toNat, h⟩ qr.1).setRem qr.2).setPc (s.next 4)) := by
  simp only [execDivAt, regIndex3_ok h1 h2 h]
  cases aluDiv m (s.x ⟨rs1.toNat, h1⟩) (s.x ⟨rs2.toNat, h2⟩) <;> rfl

theorem compare2_of_valid (rel : Word → Word → Bool) {r1 r2 : Byte} (s : State)
    (h1 : r1.toNat < 32) (h2 : r2.toNat < 32) :
    compare2 rel r1 r2 s =
      .next ((s.setEq (rel (s.x ⟨r1.toNat, h1⟩) (s.x ⟨r2.toNat, h2⟩))).setPc (s.next 4)) := by
  simp [compare2, regIndex2_ok h1 h2]

theorem execJmp_of_valid {rt : Byte} (s : State) (h : rt.toNat < 32) :
    execJmp rt s = commit s (jumpTo s (s.x ⟨rt.toNat, h⟩).toNat) := by
  simp [execJmp, regIndex_ok h, uVal]

theorem execJmpf_of_valid {rt : Byte} (s : State) (h : rt.toNat < 32) :
    execJmpf rt s = commit s (if 2 ^ 32 ≤ s.next 2 + (s.x ⟨rt.toNat, h⟩).toNat
      then .error (.jumpOffsetOutOfRange .overflow) else jumpTo s (s.next 2 + (s.x ⟨rt.toNat, h⟩).toNat)) := by
  simp [execJmpf, regIndex_ok h, uVal]

theorem execJmpb_of_valid {rt : Byte} (s : State) (h : rt.toNat < 32) :
    execJmpb rt s = commit s (if s.next 2 < (s.x ⟨rt.toNat, h⟩).toNat
      then .error (.jumpOffsetOutOfRange .underflow)
      else .ok (s.setPc (s.next 2 - (s.x ⟨rt.toNat, h⟩).toNat))) := by
  simp [execJmpb, regIndex_ok h, uVal]

theorem execJmpe_of_valid {rt : Byte} (s : State) (h : rt.toNat < 32) :
    execJmpe rt s = commit s (if s.eqFlag = true then jumpTo s (s.x ⟨rt.toNat, h⟩).toNat
      else .ok (s.setPc (s.next 2))) := by
  simp [execJmpe, regIndex_ok h, uVal]

/-! ### Results and targets in range -/

/-- Add, Sub and Mul with a result `e` that fits: the parameter plays no part. -/
theorem arith3_of_fits {alu : Word → Word → Except EngineFault Word} {m : ArithOverflow} {rs1 rs2 rd : Byte}
    {s : State} {e : Int} (h1 : rs1.toNat < 32) (h2 : rs2.toNat < 32) (h : rd.toNat < 32)
    (halu : alu (s.x ⟨rs1.toNat, h1⟩) (s.x ⟨rs2.toNat, h2⟩) = narrow m e) (he : fits32 e = true) :
    arith3 alu rs1 rs2 rd s = .next ((s.setX ⟨rd.toNat, h⟩ (to32 e)).setPc (s.next 4)) := by
  rw [arith3_of_valid alu s h1 h2 h, halu, narrow_fits m e he]; rfl

theorem execDivAt_of_fits (m : ArithOverflow) {rs1 rs2 rd : Byte} {s : State}
    (h1 : rs1.toNat < 32) (h2 : rs2.toNat < 32) (h : rd.toNat < 32) (h0 : sVal (s.x ⟨rs2.toNat, h2⟩) ≠ 0)
    (hq : fits32 (quotient (s.x ⟨rs1.toNat, h1⟩) (s.x ⟨rs2.toNat, h2⟩)) = true) :
    execDivAt m rs1 rs2 rd s =
      .next (((s.setX ⟨rd.toNat, h⟩ (to32 (quotient (s.x ⟨rs1.toNat, h1⟩) (s.x ⟨rs2.toNat, h2⟩)))).setRem
        (to32 (remainder (s.x ⟨rs1.toNat, h1⟩) (s.x ⟨rs2.toNat, h2⟩)))).setPc (s.next 4)) := by
  rw [execDivAt_of_valid m s h1 h2 h, aluDiv_ok h0 (narrow_fits m _ hq)]; rfl

theorem execJmp_of_le {rt : Byte} {s : State} (h : rt.toNat < 32) (hn : (s.x ⟨rt.toNat, h⟩).toNat ≤ s.len) :
    execJmp rt s = .next (s.setPc (s.x ⟨rt.toNat, h⟩).toNat) := by
  rw [execJmp_of_valid s h, jumpTo_of_le hn, commit_ok]

theorem execJmpf_of_le {rt : Byte} {s : State} (h : rt.toNat < 32)
    (hn : s.next 2 + (s.x ⟨rt.toNat, h⟩).toNat ≤ s.len) :
    execJmpf rt s = .next (s.setPc (s.next 2 + (s.x ⟨rt.toNat, h⟩).toNat)) := by
  have hlen : s.len < 2 ^ 32 := s.buf.len.isLt
  rw [execJmpf_of_valid s h, if_neg (by omega), jumpTo_of_le hn, commit_ok]

theorem execJmpb_of_le {rt : Byte} {s : State} (h : rt.toNat < 32) (hn : (s.x ⟨rt.toNat, h⟩).toNat ≤ s.next 2) :
    execJmpb rt s = .next (s.setPc (s.next 2 - (s.x ⟨rt.toNat, h⟩).toNat)) := by
  rw [execJmpb_of_valid s h, if_neg (by omega), commit_ok]

theorem execJmpe_of_taken {rt : Byte} {s : State} (h : rt.toNat < 32) (heq : s.eqFlag = true)
    (hn : (s.x ⟨rt.toNat, h⟩).toNat ≤ s.len) :
    execJmpe rt s = .next (s.setPc (s.x ⟨rt.toNat, h⟩).toNat) := by
  rw [execJmpe_of_valid s h, if_pos heq, jumpTo_of_le hn, commit_ok]

/-! ### No index fault -/

/-- An answer whose next state is not stopped by RegisterIndexOutOfRange. -/
def AvoidsIndexFault (o : Outcome) : Prop :=
  ∀ (t : State) (v : Byte), o = .next t → t.run ≠ .halted (.fault (.registerIndexOutOfRange v))

@[simp] theorem avoidsIndexFault_next (t : State) :
    AvoidsIndexFault (.next t) ↔ ∀ v, t.run ≠ .halted (.fault (.registerIndexOutOfRange v)) :=
  ⟨fun h v => h t v rfl, fun h u v hu => by cases hu; exact h v⟩

/-- A rule that keeps the engine running and computes its value without an index fault. -/
theorem commit_map_avoidsIndexFault {α : Type} {s : State} {r : Except EngineFault α} {g : α → State}
    (hg : ∀ a, (g a).run = .running) (herr : ∀ v, r ≠ .error (.registerIndexOutOfRange v)) :
    AvoidsIndexFault (commit s (r.map g)) := by
  cases r with
  | ok a => simp [Except.map, hg]
  | error f => simpa [Except.map] using herr

theorem narrow_ne_indexFault (m : ArithOverflow) (e : Int) (v : Byte) :
    narrow m e ≠ .error (.registerIndexOutOfRange v) := by
  rw [narrow_eq]; split <;> simp

theorem aluDiv_ne_indexFault (m : ArithOverflow) (a b : Word) (v : Byte) :
    aluDiv m a b ≠ .error (.registerIndexOutOfRange v) := by
  by_cases h0 : sVal b = 0
  · simp [aluDiv_zero m a b h0]
  · cases hq : narrow m (quotient a b) with
    | ok q => simp [aluDiv_ok h0 hq]
    | error f =>
      simpa [aluDiv_overflow h0 hq, hq] using narrow_ne_indexFault m (quotient a b) v

theorem commit_jumpTo_avoidsIndexFault {s : State} (n : Nat) (hs : s.run = .running) :
    AvoidsIndexFault (commit s (jumpTo s n)) := by
  rcases le_or_gt n s.len with hn | hn
  · simp [jumpTo_of_le hn, hs]
  · simp [jumpTo_of_gt hn]

section
variable {s : State} (hs : s.run = .running)
include hs

theorem execLoad_avoidsIndexFault {rd : Byte} (imm : Half) (h : rd.toNat < 32) :
    AvoidsIndexFault (execLoad rd imm s) := by
  simp [execLoad_of_valid imm s h, hs]

theorem arith3_avoidsIndexFault {alu : Word → Word → Except EngineFault Word} {rs1 rs2 rd : Byte}
    (halu : ∀ a b v, alu a b ≠ .error (.registerIndexOutOfRange v))
    (h1 : rs1.toNat < 32) (h2 : rs2.toNat < 32) (h : rd.toNat < 32) :
    AvoidsIndexFault (arith3 alu rs1 rs2 rd s) := by
  rw [arith3_of_valid alu s h1 h2 h]
  exact commit_map_avoidsIndexFault (fun _ => hs) (halu _ _)

theorem execDivAt_avoidsIndexFault (m : ArithOverflow) {rs1 rs2 rd : Byte}
    (h1 : rs1.toNat < 32) (h2 : rs2.toNat < 32) (h : rd.toNat < 32) :
    AvoidsIndexFault (execDivAt m rs1 rs2 rd s) := by
  rw [execDivAt_of_valid m s h1 h2 h]
  exact commit_map_avoidsIndexFault (fun _ => hs) (aluDiv_ne_indexFault m _ _)

theorem compare2_avoidsIndexFault (rel : Word → Word → Bool) {r1 r2 : Byte}
    (h1 : r1.toNat < 32) (h2 : r2.toNat < 32) : AvoidsIndexFault (compare2 rel r1 r2 s) := by
  simp [compare2_of_valid rel s h1 h2, hs]

theorem execJmp_avoidsIndexFault {rt : Byte} (h : rt.toNat < 32) : AvoidsIndexFault (execJmp rt s) := by
  rw [execJmp_of_valid s h]
  exact commit_jumpTo_avoidsIndexFault _ hs

theorem execJmpf_avoidsIndexFault {rt : Byte} (h : rt.toNat < 32) : AvoidsIndexFault (execJmpf rt s) := by
  rw [execJmpf_of_valid s h]
  split
  · simp
  · exact commit_jumpTo_avoidsIndexFault _ hs

theorem execJmpb_avoidsIndexFault {rt : Byte} (h : rt.toNat < 32) : AvoidsIndexFault (execJmpb rt s) := by
  rw [execJmpb_of_valid s h]
  split <;> simp [hs]

theorem execJmpe_avoidsIndexFault {rt : Byte} (h : rt.toNat < 32) : AvoidsIndexFault (execJmpe rt s) := by
  rw [execJmpe_of_valid s h]
  split
  · exact commit_jumpTo_avoidsIndexFault _ hs
  · simp [hs]

/-- An instruction whose index bytes are all 0 to 31 raises no index fault (R11, R46). -/
theorem execAt_avoidsIndexFault (m : ArithOverflow) (i : Instr) (hi : i.regsValid = true) :
    AvoidsIndexFault (execAt m i s) := by
  have hall : ∀ v ∈ i.regBytes, v.toNat < 32 := by simpa [Instr.regsValid] using hi
  cases i with
  | load rd imm => exact execLoad_avoidsIndexFault hs imm (hall rd (by simp [Instr.regBytes]))
  | add rs1 rs2 rd | sub rs1 rs2 rd | mul rs1 rs2 rd =>
    simp only [Instr.regBytes, List.forall_mem_cons] at hall
    obtain ⟨h1, h2, h, -⟩ := hall
    exact arith3_avoidsIndexFault hs (fun _ _ => narrow_ne_indexFault m _) h1 h2 h
  | div rs1 rs2 rd =>
    simp only [Instr.regBytes, List.forall_mem_cons] at hall
    obtain ⟨h1, h2, h, -⟩ := hall
    exact execDivAt_avoidsIndexFault hs m h1 h2 h
  | eq r1 r2 pad | neq r1 r2 pad | gte r1 r2 pad | lte r1 r2 pad | lt r1 r2 pad | gt r1 r2 pad =>
    simp only [Instr.regBytes, List.forall_mem_cons] at hall
    obtain ⟨h1, h2, -⟩ := hall
    exact compare2_avoidsIndexFault hs _ h1 h2
  | jmp rt => exact execJmp_avoidsIndexFault hs (hall rt (by simp [Instr.regBytes]))
  | jmpf rt => exact execJmpf_avoidsIndexFault hs (hall rt (by simp [Instr.regBytes]))
  | jmpb rt => exact execJmpb_avoidsIndexFault hs (hall rt (by simp [Instr.regBytes]))
  | jmpe rt => exact execJmpe_avoidsIndexFault hs (hall rt (by simp [Instr.regBytes]))
  | halt => simp [execAt, execHalt]
  | illegal code => simp [execAt, execIllegal]

end

/-! ### Each operand names its register, one kind of instruction at a time -/

/-- Load's destination, in the fields of State. -/
theorem load_writes_named_register (s : State) (rd : Byte) (imm : Half) (h : rd.toNat < 32) :
    ∃ t, exec (.load rd imm) s = .next t ∧ t.regs[rd.toNat] = imm.setWidth 32 ∧
      ∀ n (_ : n < 32), n ≠ rd.toNat → t.regs[n] = s.regs[n] := by
  refine ⟨_, execLoad_of_valid imm s h, ?_, fun n hn hne => ?_⟩
  · rw [← x_eq_getElem _ _ h, x_setPc, x_setX_self]; rfl
  · rw [← x_eq_getElem _ _ hn, ← x_eq_getElem _ _ hn, x_setPc, x_setX_ne]
    simpa using hne

/-- The arithmetic instructions whose result fits, under every ARITH_OVERFLOW alike. -/
theorem arithmetic_writes_named_register (s : State) (rs1 rs2 rd : Byte) (h1 : rs1.toNat < 32)
    (h2 : rs2.toNat < 32) (h : rd.toNat < 32) (a b : Int) (ha : a = (s.x ⟨rs1.toNat, h1⟩).toInt)
    (hb : b = (s.x ⟨rs2.toNat, h2⟩).toInt) (c : Instr × Int)
    (hc : c ∈ [(.add rs1 rs2 rd, a + b), (.sub rs1 rs2 rd, a - b), (.mul rs1 rs2 rd, a * b),
      (.div rs1 rs2 rd, a.tdiv b)])
    (h0 : c.1 = .div rs1 rs2 rd → b ≠ 0) (hfits : fits32 c.2 = true) :
    ∃ t, (∀ m, execAt m c.1 s = .next t) ∧ (t.x ⟨rd.toNat, h⟩).toInt = c.2 ∧
      ∀ j, j ≠ ⟨rd.toNat, h⟩ → t.x j = s.x j := by
  subst ha hb
  simp only [List.mem_cons, List.not_mem_nil, or_false] at hc
  rcases hc with rfl | rfl | rfl | rfl
  case inr.inr.inr =>
    exact ⟨_, fun m => execDivAt_of_fits m h1 h2 h (h0 rfl) hfits, setX_to32_reads s _ hfits⟩
  all_goals exact ⟨_, fun m => arith3_of_fits (m := m) h1 h2 h rfl hfits, setX_to32_reads s _ hfits⟩

theorem comparison_reads_named_registers (s : State) (r1 r2 pad : Byte) (h1 : r1.toNat < 32) (h2 : r2.toNat < 32)
    (a b : Int) (ha : a = (s.x ⟨r1.toNat, h1⟩).toInt) (hb : b = (s.x ⟨r2.toNat, h2⟩).toInt) (c : Instr × Bool)
    (hc : c ∈ [(.eq r1 r2 pad, decide (a = b)), (.neq r1 r2 pad, decide (a ≠ b)),
      (.gte r1 r2 pad, decide (a ≥ b)), (.lte r1 r2 pad, decide (a ≤ b)), (.lt r1 r2 pad, decide (a < b)),
      (.gt r1 r2 pad, decide (a > b))]) :
    ∃ t, exec c.1 s = .next t ∧ t.eqFlag = c.2 := by
  subst ha hb
  simp only [List.mem_cons, List.not_mem_nil, or_false] at hc
  rcases hc with rfl | rfl | rfl | rfl | rfl | rfl
  all_goals exact ⟨_, compare2_of_valid _ s h1 h2, rfl⟩

theorem jump_reads_named_register (s : State) (rt : Byte) (h : rt.toNat < 32) (n : Nat)
    (hn : n = (s.x ⟨rt.toNat, h⟩).toNat) :
    (n ≤ s.len → ∃ t, exec (.jmp rt) s = .next t ∧ t.pc.toNat = n) ∧
    (s.pc.toNat + 2 + n ≤ s.len → ∃ t, exec (.jmpf rt) s = .next t ∧ t.pc.toNat = s.pc.toNat + 2 + n) ∧
    (s.pc.toNat + 2 ≤ s.len → n ≤ s.pc.toNat + 2 →
      ∃ t, exec (.jmpb rt) s = .next t ∧ t.pc.toNat = s.pc.toNat + 2 - n) ∧
    (s.eqFlag = true → n ≤ s.len → ∃ t, exec (.jmpe rt) s = .next t ∧ t.pc.toNat = n) := by
  subst hn
  refine ⟨fun hle => ?jmp, fun hle => ?jmpf, fun hlen hle => ?jmpb, fun heq hle => ?jmpe⟩
  case jmp => exact ⟨_, execJmp_of_le h hle, setPc_pc_toNat hle⟩
  case jmpf => exact ⟨_, execJmpf_of_le h hle, setPc_pc_toNat hle⟩
  case jmpb => exact ⟨_, execJmpb_of_le h hle, setPc_pc_toNat ((Nat.sub_le _ _).trans hlen)⟩
  case jmpe => exact ⟨_, execJmpe_of_taken h heq hle, setPc_pc_toNat hle⟩

/-- Settles O35: the write-read laws of the registers, then each kind of operand, then the acceptance of every index
0 to 31. -/
theorem registersAreOrdinaryAndIndependent : Obligations.RegistersAreOrdinaryAndIndependent := by
  unfold Obligations.RegistersAreOrdinaryAndIndependent
  refine ⟨fun s i v => ⟨x_eq_getElem s i i.isLt, x_setX_self s i v, fun _ hj => x_setX_ne s v hj⟩,
    load_writes_named_register, ?_, comparison_reads_named_registers, jump_reads_named_register,
    fun m i s t v hs hi ht => execAt_avoidsIndexFault hs m i hi t v ht⟩
  intro m s rs1 rs2 rd h1 h2 h a b ha hb c hc h0 hlo hhi
  obtain ⟨t, hexec, hreads⟩ :=
    arithmetic_writes_named_register s rs1 rs2 rd h1 h2 h a b ha hb c hc h0 ((fits32_iff _).2 ⟨hlo, hhi⟩)
  exact ⟨t, (exec_eq_execAt c.1 s).trans (hexec _), hexec m, hreads⟩

end Sys2Proof.Machine
end

section
/-! PROOFS. The engine without its buffer: what each instruction does when another buffer of the same length stands in
the state's place, and a step that only finds its own instruction's bytes there (spec/20_memory.md R24). -/

namespace Sys2Proof.Machine

/-! ### The state with another buffer -/

/-- The state with another buffer in the place of its own. -/
def State.withBuf (s : State) (m : Memory) : State := { s with buf := m }

@[simp] theorem withBuf_regs (s : State) (m : Memory) : (s.withBuf m).regs = s.regs := rfl
@[simp] theorem withBuf_pc (s : State) (m : Memory) : (s.withBuf m).pc = s.pc := rfl
@[simp] theorem withBuf_eqFlag (s : State) (m : Memory) : (s.withBuf m).eqFlag = s.eqFlag := rfl
@[simp] theorem withBuf_rem (s : State) (m : Memory) : (s.withBuf m).rem = s.rem := rfl
@[simp] theorem withBuf_run (s : State) (m : Memory) : (s.withBuf m).run = s.run := rfl
@[simp] theorem withBuf_buf (s : State) (m : Memory) : (s.withBuf m).buf = m := rfl
@[simp] theorem withBuf_notices (s : State) (m : Memory) : (s.withBuf m).notices = s.notices := rfl

@[simp] theorem x_withBuf (s : State) (m : Memory) (i : Fin 32) : (s.withBuf m).x i = s.x i := rfl

@[simp] theorem next_withBuf (s : State) (m : Memory) (n : Nat) : (s.withBuf m).next n = s.next n := rfl

theorem len_withBuf {s : State} {m : Memory} (hlen : m.len = s.buf.len) : (s.withBuf m).len = s.len :=
  congrArg BitVec.toNat hlen

/-! ### Answers that differ in the buffer alone -/

/-- The two answers, the first from `s` and the second from `s` with the buffer `m`, are one next state that keeps the
buffer it was given. -/
def SameUpToBuffer (s : State) (m : Memory) (o o' : Outcome) : Prop :=
  ∃ t, t.buf = s.buf ∧ o = .next t ∧ o' = .next (t.withBuf m)

section
variable {s : State} {m : Memory}

theorem SameUpToBuffer.of_next {t : State} {o o' : Outcome} (h : SameUpToBuffer s m o o') (ho : o = .next t) :
    t.buf = s.buf ∧ o' = .next (t.withBuf m) := by
  obtain ⟨u, hbuf, hu, ho'⟩ := h
  cases hu.symm.trans ho
  exact ⟨hbuf, ho'⟩

theorem sameUpToBuffer_next {t : State} (h : t.buf = s.buf) :
    SameUpToBuffer s m (.next t) (.next (t.withBuf m)) := ⟨t, h, rfl, rfl⟩

theorem commit_ok_sameUpToBuffer {t : State} (h : t.buf = s.buf) :
    SameUpToBuffer s m (commit s (.ok t)) (commit (s.withBuf m) (.ok (t.withBuf m))) := sameUpToBuffer_next h

theorem commit_error_sameUpToBuffer (f : EngineFault) :
    SameUpToBuffer s m (commit s (.error f)) (commit (s.withBuf m) (.error f)) :=
  sameUpToBuffer_next (raiseFault_buf s f)

/-- Both sides decide `c` alike, so each branch can be compared with the same branch. -/
theorem commit_ite_sameUpToBuffer {c : Prop} [Decidable c] {r r' q q' : Except EngineFault State}
    (hthen : SameUpToBuffer s m (commit s r) (commit (s.withBuf m) r'))
    (helse : SameUpToBuffer s m (commit s q) (commit (s.withBuf m) q')) :
    SameUpToBuffer s m (commit s (if c then r else q)) (commit (s.withBuf m) (if c then r' else q')) := by
  by_cases hc : c
  · rwa [if_pos hc, if_pos hc]
  · rwa [if_neg hc, if_neg hc]

/-! ### No instruction reads or writes the buffer's bytes -/

theorem execLoad_sameUpToBuffer (rd : Byte) (imm : Half) :
    SameUpToBuffer s m (execLoad rd imm s) (execLoad rd imm (s.withBuf m)) := by
  unfold execLoad
  cases regIndex rd with
  | error f => exact commit_error_sameUpToBuffer f
  | ok d => exact commit_ok_sameUpToBuffer (t := (s.setX d (zext16 imm)).setPc (s.next 4)) rfl

theorem arith3_sameUpToBuffer (alu : Word → Word → Except EngineFault Word) (rs1 rs2 rd : Byte) :
    SameUpToBuffer s m (arith3 alu rs1 rs2 rd s) (arith3 alu rs1 rs2 rd (s.withBuf m)) := by
  unfold arith3
  cases regIndex3 rs1 rs2 rd with
  | error f => exact commit_error_sameUpToBuffer f
  | ok ijd =>
    obtain ⟨i, j, d⟩ := ijd
    simp only [x_withBuf]
    cases alu (s.x i) (s.x j) with
    | error f => exact commit_error_sameUpToBuffer f
    | ok v => exact commit_ok_sameUpToBuffer (t := (s.setX d v).setPc (s.next 4)) rfl

theorem execDivAt_sameUpToBuffer (a : ArithOverflow) (rs1 rs2 rd : Byte) :
    SameUpToBuffer s m (execDivAt a rs1 rs2 rd s) (execDivAt a rs1 rs2 rd (s.withBuf m)) := by
  unfold execDivAt
  cases regIndex3 rs1 rs2 rd with
  | error f => exact commit_error_sameUpToBuffer f
  | ok ijd =>
    obtain ⟨i, j, d⟩ := ijd
    simp only [x_withBuf]
    cases aluDiv a (s.x i) (s.x j) with
    | error f => exact commit_error_sameUpToBuffer f
    | ok qr => exact commit_ok_sameUpToBuffer (t := ((s.setX d qr.1).setRem qr.2).setPc (s.next 4)) rfl

theorem compare2_sameUpToBuffer (rel : Word → Word → Bool) (r1 r2 : Byte) :
    SameUpToBuffer s m (compare2 rel r1 r2 s) (compare2 rel r1 r2 (s.withBuf m)) := by
  unfold compare2
  cases regIndex2 r1 r2 with
  | error f => exact commit_error_sameUpToBuffer f
  | ok ij => exact commit_ok_sameUpToBuffer (t := (s.setEq (rel (s.x ij.1) (s.x ij.2))).setPc (s.next 4)) rfl

theorem execJmpb_sameUpToBuffer (rt : Byte) :
    SameUpToBuffer s m (execJmpb rt s) (execJmpb rt (s.withBuf m)) := by
  unfold execJmpb
  cases regIndex rt with
  | error f => exact commit_error_sameUpToBuffer f
  | ok i =>
    exact commit_ite_sameUpToBuffer (commit_error_sameUpToBuffer _)
      (commit_ok_sameUpToBuffer (t := s.setPc (s.next 2 - uVal (s.x i))) rfl)

/-! The other jumps compare their target with LEN, so LEN is the one thing about the buffer they depend on. -/

theorem commit_jumpTo_sameUpToBuffer (hlen : m.len = s.buf.len) (n : Nat) :
    SameUpToBuffer s m (commit s (jumpTo s n)) (commit (s.withBuf m) (jumpTo (s.withBuf m) n)) := by
  have hlen' := len_withBuf hlen
  rcases le_or_gt n s.len with hn | hn
  · rw [jumpTo_of_le hn, jumpTo_of_le (hlen' ▸ hn)]
    exact commit_ok_sameUpToBuffer (t := s.setPc n) rfl
  · rw [jumpTo_of_gt hn, jumpTo_of_gt (hlen' ▸ hn)]
    exact commit_error_sameUpToBuffer _

theorem execJmp_sameUpToBuffer (hlen : m.len = s.buf.len) (rt : Byte) :
    SameUpToBuffer s m (execJmp rt s) (execJmp rt (s.withBuf m)) := by
  unfold execJmp
  cases regIndex rt with
  | error f => exact commit_error_sameUpToBuffer f
  | ok i => exact commit_jumpTo_sameUpToBuffer hlen _

theorem execJmpf_sameUpToBuffer (hlen : m.len = s.buf.len) (rt : Byte) :
    SameUpToBuffer s m (execJmpf rt s) (execJmpf rt (s.withBuf m)) := by
  unfold execJmpf
  cases regIndex rt with
  | error f => exact commit_error_sameUpToBuffer f
  | ok i =>
    exact commit_ite_sameUpToBuffer (commit_error_sameUpToBuffer _) (commit_jumpTo_sameUpToBuffer hlen _)

theorem execJmpe_sameUpToBuffer (hlen : m.len = s.buf.len) (rt : Byte) :
    SameUpToBuffer s m (execJmpe rt s) (execJmpe rt (s.withBuf m)) := by
  unfold execJmpe
  cases regIndex rt with
  | error f => exact commit_error_sameUpToBuffer f
  | ok i =>
    exact commit_ite_sameUpToBuffer (commit_jumpTo_sameUpToBuffer hlen _)
      (commit_ok_sameUpToBuffer (t := s.setPc (s.next 2)) rfl)

theorem execAt_sameUpToBuffer (hlen : m.len = s.buf.len) (a : ArithOverflow) (i : Instr) :
    SameUpToBuffer s m (execAt a i s) (execAt a i (s.withBuf m)) := by
  cases i with
  | load rd imm => exact execLoad_sameUpToBuffer rd imm
  | add rs1 rs2 rd | sub rs1 rs2 rd | mul rs1 rs2 rd => exact arith3_sameUpToBuffer _ rs1 rs2 rd
  | div rs1 rs2 rd => exact execDivAt_sameUpToBuffer a rs1 rs2 rd
  | eq r1 r2 pad | neq r1 r2 pad | gte r1 r2 pad | lte r1 r2 pad | lt r1 r2 pad | gt r1 r2 pad =>
    exact compare2_sameUpToBuffer _ r1 r2
  | jmp rt => exact execJmp_sameUpToBuffer hlen rt
  | jmpf rt => exact execJmpf_sameUpToBuffer hlen rt
  | jmpb rt => exact execJmpb_sameUpToBuffer rt
  | jmpe rt => exact execJmpe_sameUpToBuffer hlen rt
  | halt => exact sameUpToBuffer_next (t := ((s.emit .haltNotice).setPc (s.next 1)).haltWith .haltOp) rfl
  | illegal code => exact sameUpToBuffer_next (t := ((s.emit .illegalNotice).setPc (s.next 1)).haltWith .illegalOp) rfl

end

/-! ### What a step does, from what stands at `pc` -/

section
variable {t : OpTable} {ex : Instr → State → Outcome} {s : State}

theorem stepWith_of_halted {c : HaltCause} (hrun : s.run = .halted c) : stepWith t ex s = .next s := by
  simp [stepWith, hrun]

theorem stepWith_of_endOfBuffer (hrun : s.run = .running) (h : s.len ≤ s.pc.toNat) :
    stepWith t ex s = .next (s.haltWith .endOfBuffer) := by
  simp [stepWith, hrun, fetch_endOfBuffer t h]

theorem stepWith_of_truncated {b0 : Byte} (hrun : s.run = .running) (hb0 : s.buf.byteAt s.pc.toNat = some b0)
    (h : s.len < s.next (opMap t b0).ilen) :
    stepWith t ex s = .next (s.raiseFault (.pcOutOfRange (s.next (opMap t b0).ilen))) := by
  simp [stepWith, hrun, fetch_truncated t hb0 h]

theorem stepWith_of_bytes {b0 : Byte} {bs : List Byte} {i : Instr} (hrun : s.run = .running)
    (hlen : (b0 :: bs).length = (opMap t b0).ilen)
    (hbytes : ∀ k (h : k < (b0 :: bs).length), s.buf.byteAt (s.pc.toNat + k) = some (b0 :: bs)[k])
    (hdecode : decodeAt t (b0 :: bs) = .ok (i, [])) : stepWith t ex s = ex i s := by
  simp [stepWith, hrun, fetch_bytes t hlen hbytes, hdecode]

end

/-! ### A step reads its own instruction's bytes and no others -/

/-- The buffer `m` holds what the buffer of `s` holds wherever the bytes of the instruction at `pc` stand. -/
def AgreesOnInstruction (t : OpTable) (s : State) (m : Memory) : Prop :=
  ∀ b0, s.buf.byteAt s.pc.toNat = some b0 → ∀ k, k < (opMap t b0).ilen →
    m.byteAt (s.pc.toNat + k) = s.buf.byteAt (s.pc.toNat + k)

theorem agreesOnInstruction_self (t : OpTable) (s : State) : AgreesOnInstruction t s s.buf :=
  fun _ _ _ _ => rfl

/-- The opcode byte is one of the instruction's own bytes. -/
theorem AgreesOnInstruction.opcode {t : OpTable} {s : State} {m : Memory} {b0 : Byte}
    (h : AgreesOnInstruction t s m) (hb0 : s.buf.byteAt s.pc.toNat = some b0) : m.byteAt s.pc.toNat = some b0 :=
  (h b0 hb0 0 (ilen_pos _)).trans hb0

theorem stepAt_sameUpToBuffer (p : Params) {s : State} {m : Memory} (hlen : m.len = s.buf.len)
    (hread : AgreesOnInstruction p.opTable s m) :
    SameUpToBuffer s m (stepAt p s) (stepAt p (s.withBuf m)) := by
  have hlen' := len_withBuf hlen
  unfold stepAt
  rcases stepWith_cases p.opTable (execAt p.overflow) s with
    ⟨⟨c, hrun⟩, e⟩ | ⟨hrun, hend, e⟩ | ⟨b0, hrun, hb0, hcut, e⟩ |
      ⟨b0, bs, i, hrun, hb0, -, hl, hbytes, hdecode, -, e⟩
  case inl =>
    rw [e, stepWith_of_halted (s := s.withBuf m) hrun]
    exact sameUpToBuffer_next rfl
  case inr.inl =>
    rw [e, stepWith_of_endOfBuffer (s := s.withBuf m) hrun (hlen'.trans_le hend)]
    exact sameUpToBuffer_next (haltWith_buf s _)
  case inr.inr.inl =>
    rw [e, stepWith_of_truncated (s := s.withBuf m) hrun (hread.opcode hb0) (hlen'.trans_lt hcut)]
    exact sameUpToBuffer_next (raiseFault_buf s _)
  case inr.inr.inr =>
    have hbytes' : ∀ k (h : k < (b0 :: bs).length), m.byteAt (s.pc.toNat + k) = some (b0 :: bs)[k] :=
      fun k hk => (hread b0 hb0 k (hl ▸ hk)).trans (hbytes k hk)
    rw [e, stepWith_of_bytes (s := s.withBuf m) hrun hl hbytes' hdecode]
    exact execAt_sameUpToBuffer hlen p.overflow i

/-- Settles O16: the step is the same up to the buffer, taken first with the buffer it has and then with the other
one. -/
theorem stepNeverStoresAndReadsOnlyItsOwnBytes : Obligations.StepNeverStoresAndReadsOnlyItsOwnBytes := by
  unfold Obligations.StepNeverStoresAndReadsOnlyItsOwnBytes
  intro p s t ht
  have hstores : t.buf = s.buf :=
    ((stepAt_sameUpToBuffer p rfl (agreesOnInstruction_self p.opTable s)).of_next ht).1
  exact ⟨hstores, fun m hlen hread => ((stepAt_sameUpToBuffer p hlen hread).of_next ht).2⟩

end Sys2Proof.Machine
end

section
/-! PROOFS. The opcode map and its inverse under any valid table, the decoder read backwards, and the encoder as its
inverse (spec/30_encoding.md R36 to R56). -/

namespace Sys2Proof

/-! ### OPMAP and the byte of an operation -/

theorem mem_definedOps_iff (op : Opcode) : op ∈ definedOps ↔ op ≠ .illegal := by
  cases op <;> decide

theorem opMap_of_lt {t : OpTable} {b : Byte} (h : b.toNat < t.length) : opMap t b = t[b.toNat] :=
  List.getD_eq_getElem t _ h

theorem opMap_of_ge {t : OpTable} {b : Byte} (h : t.length ≤ b.toNat) : opMap t b = .illegal :=
  List.getD_eq_default t _ h

namespace OpTable.valid

variable {t : OpTable}

theorem length_eq (ht : t.valid) : t.length = 16 := List.Perm.length_eq ht

theorem nodup (ht : t.valid) : t.Nodup := (List.Perm.nodup_iff ht).2 (by decide)

theorem mem_iff (ht : t.valid) (op : Opcode) : op ∈ t ↔ op ≠ .illegal :=
  (List.Perm.mem_iff ht).trans (mem_definedOps_iff op)

theorem opMap_eq_illegal_iff (ht : t.valid) (b : Byte) : opMap t b = .illegal ↔ 16 ≤ b.toNat := by
  rcases lt_or_ge b.toNat t.length with hb | hb
  · have hne : t[b.toNat] ≠ .illegal := (ht.mem_iff _).1 (List.getElem_mem hb)
    rw [opMap_of_lt hb]
    exact iff_of_false hne (by have := ht.length_eq; omega)
  · exact iff_of_true (opMap_of_ge hb) (ht.length_eq ▸ hb)

theorem opByte_toNat (ht : t.valid) {op : Opcode} (hop : op ≠ .illegal) :
    (opByte t op).toNat = t.idxOf op ∧ t.idxOf op < t.length := by
  have hlt : t.idxOf op < t.length := List.idxOf_lt_length_of_mem ((ht.mem_iff op).2 hop)
  refine ⟨?_, hlt⟩
  rw [opByte, BitVec.toNat_ofNat, Nat.mod_eq_of_lt (by have := ht.length_eq; omega)]

theorem opMap_opByte (ht : t.valid) {op : Opcode} (hop : op ≠ .illegal) : opMap t (opByte t op) = op := by
  obtain ⟨hidx, hlt⟩ := ht.opByte_toNat hop
  rw [opMap, hidx, List.getD_eq_getElem t _ hlt, List.getElem_idxOf]

theorem opByte_opMap (ht : t.valid) {b : Byte} (hb : opMap t b ≠ .illegal) : opByte t (opMap t b) = b := by
  have hlt : b.toNat < t.length := by
    by_contra hge
    exact hb (opMap_of_ge (by omega))
  rw [opMap_of_lt hlt, opByte, ht.nodup.idxOf_getElem]
  simp

end OpTable.valid

/-! ### The two bytes of an immediate -/

theorem immHigh_joinWord (b c : Byte) : immHigh (joinWord b c) = b := by
  ext k hk
  have hhigh : 8 + k < 16 := by omega
  have hlow : k < 16 := by omega
  simp [immHigh, joinWord, hhigh, hlow, BitVec.getLsbD_eq_getElem hk]

theorem immLow_joinWord (b c : Byte) : immLow (joinWord b c) = c := by
  ext k hk
  simp [immLow, joinWord]

/-! ### The decoder read backwards -/

theorem decodeJ_eq_some {mk : Byte → Instr} {bs : List Byte} {i : Instr} {rest : List Byte}
    (h : decodeJ mk bs = some (i, rest)) : ∃ v, bs = v :: rest ∧ i = mk v := by
  match bs, h with
  | v :: _, rfl => exact ⟨v, rfl, rfl⟩

theorem decodeL_eq_some {mk : Byte → Half → Instr} {bs : List Byte} {i : Instr} {rest : List Byte}
    (h : decodeL mk bs = some (i, rest)) : ∃ v b c, bs = v :: b :: c :: rest ∧ i = mk v (joinWord b c) := by
  match bs, h with
  | v :: b :: c :: _, rfl => exact ⟨v, b, c, rfl, rfl⟩

theorem decodeRC_eq_some {mk : Byte → Byte → Byte → Instr} {bs : List Byte} {i : Instr} {rest : List Byte}
    (h : decodeRC mk bs = some (i, rest)) : ∃ u v w, bs = u :: v :: w :: rest ∧ i = mk u v w := by
  match bs, h with
  | u :: v :: w :: _, rfl => exact ⟨u, v, w, rfl, rfl⟩

/-- The operand reads give an instruction of the operation they were asked for, and what they consumed is what the
encoder writes after the opcode byte. -/
theorem decodeOperands_eq_some {b0 : Byte} {op : Opcode} {bs : List Byte} {i : Instr} {rest : List Byte}
    (h : decodeOperands b0 op bs = some (i, rest)) (t : OpTable) :
    i.op = op ∧ bs = (encodeAt t i).tail ++ rest := by
  cases op
  case load =>
    obtain ⟨v, b, c, rfl, rfl⟩ := decodeL_eq_some h
    refine ⟨rfl, ?_⟩
    simp [encodeAt, immHigh_joinWord, immLow_joinWord]
  case jmp | jmpf | jmpb | jmpe =>
    obtain ⟨v, rfl, rfl⟩ := decodeJ_eq_some h
    exact ⟨rfl, rfl⟩
  case halt | illegal =>
    cases h
    exact ⟨rfl, rfl⟩
  all_goals
    obtain ⟨u, v, w, rfl, rfl⟩ := decodeRC_eq_some h
    exact ⟨rfl, rfl⟩

theorem decodeOperands_illegal (b0 : Byte) (bs : List Byte) :
    decodeOperands b0 .illegal bs = some (.illegal b0, bs) := rfl

theorem decodeAt_cons_eq_ok_iff {t : OpTable} {b0 : Byte} {bs : List Byte} {r : Instr × List Byte} :
    decodeAt t (b0 :: bs) = .ok r ↔ decodeOperands b0 (opMap t b0) bs = some r := by
  cases h : decodeOperands b0 (opMap t b0) bs <;> simp [decodeAt, h]

theorem op_of_decodeAt {t : OpTable} {b0 : Byte} {bs : List Byte} {i : Instr} {rest : List Byte}
    (h : decodeAt t (b0 :: bs) = .ok (i, rest)) : i.op = opMap t b0 :=
  (decodeOperands_eq_some (decodeAt_cons_eq_ok_iff.1 h) t).1

/-- A byte that OPMAP does not assign is a whole instruction, whatever follows it. -/
theorem decodeAt_of_opMap_illegal {t : OpTable} {b0 : Byte} (hb : opMap t b0 = .illegal) (bs : List Byte) :
    decodeAt t (b0 :: bs) = .ok (.illegal b0, bs) := by
  rw [decodeAt_cons_eq_ok_iff, hb, decodeOperands_illegal]

/-! ### The encoder gives the bytes back -/

theorem encodeAt_eq_opByte_cons (t : OpTable) {i : Instr} (h : i.op ≠ .illegal) :
    encodeAt t i = opByte t i.op :: (encodeAt t i).tail := by
  cases i with
  | illegal code => exact absurd rfl h
  | _ => rfl

theorem length_encodeAt (t : OpTable) (i : Instr) : (encodeAt t i).length = i.ilen := by
  cases i <;> rfl

theorem wellFormed_of_op_ne_illegal {i : Instr} (h : i.op ≠ .illegal) : i.wellFormed = true := by
  cases i with
  | illegal code => exact absurd rfl h
  | _ => rfl

/-- Under a valid table the instruction that was read is well formed and encodes to the bytes it was read from. -/
theorem encodeAt_of_decodeAt {t : OpTable} (ht : t.valid) {b0 : Byte} {bs : List Byte} {i : Instr} {rest : List Byte}
    (h : decodeAt t (b0 :: bs) = .ok (i, rest)) : encodeAt t i ++ rest = b0 :: bs ∧ i.wellFormed = true := by
  by_cases hb : opMap t b0 = .illegal
  · cases (decodeAt_of_opMap_illegal hb bs).symm.trans h
    exact ⟨rfl, decide_eq_true ((ht.opMap_eq_illegal_iff b0).1 hb)⟩
  · obtain ⟨hop, hbs⟩ := decodeOperands_eq_some (decodeAt_cons_eq_ok_iff.1 h) t
    have hi : i.op ≠ .illegal := hop ▸ hb
    have hhead : opByte t i.op = b0 := by rw [hop, ht.opByte_opMap hb]
    refine ⟨?_, wellFormed_of_op_ne_illegal hi⟩
    rw [encodeAt_eq_opByte_cons t hi, hhead, List.cons_append, ← hbs]

/-- Settles O2: the bytes come back by `encodeAt_of_decodeAt`, and their number is the length of an encoding. -/
theorem encodeInvertsDecode : Obligations.EncodeInvertsDecode := by
  unfold Obligations.EncodeInvertsDecode
  intro t b0 bs i rest ht h
  obtain ⟨hbytes, hwf⟩ := encodeAt_of_decodeAt ht h
  have hop : i.op = opMap t b0 := op_of_decodeAt h
  refine ⟨hbytes, hwf, hop, ?_⟩
  calc rest.length + (opMap t b0).ilen
      = (encodeAt t i).length + rest.length := by rw [length_encodeAt, Instr.ilen, hop, Nat.add_comm]
    _ = (b0 :: bs).length := by rw [← List.length_append, hbytes]

/-! ### Illegal, and the map as a whole -/

namespace Machine

/-- The next state does not depend on the byte. -/
theorem exec_illegal (code : Byte) (s : State) :
    exec (.illegal code) s = .next (((s.emit .illegalNotice).setPc (s.next 1)).haltWith .illegalOp) := rfl

theorem noFault_haltWith_illegalOp (s : State) : (s.haltWith .illegalOp).noFault = true := rfl

/-- Settles O4: from 16 on OPMAP answers Illegal, which reads no operand and whose next state names no byte. -/
theorem unmappedBytesExecuteAsIllegal : Obligations.UnmappedBytesExecuteAsIllegal := by
  unfold Obligations.UnmappedBytesExecuteAsIllegal
  intro t b rest ht hb
  have hop : opMap t b = .illegal := (ht.opMap_eq_illegal_iff b).2 hb
  refine ⟨hop, by rw [hop]; rfl, decodeAt_of_opMap_illegal hop rest, fun s => ?_⟩
  exact ⟨_, exec_illegal b s, haltWith_run _ _, noFault_haltWith_illegalOp _, rfl, rfl, rfl, rfl,
    fun c _ => exec_illegal c s⟩

end Machine

/-- Settles O5: `opByte` is the inverse of OPMAP on the defined operations. -/
theorem opcodeMapIsTotalAndOneToOne : Obligations.OpcodeMapIsTotalAndOneToOne := by
  unfold Obligations.OpcodeMapIsTotalAndOneToOne
  intro t ht
  refine ⟨ht.opMap_eq_illegal_iff, fun op hop => ⟨opByte t op, ?_, ht.opMap_opByte hop, ?_⟩,
    fun _ _ _ _ => op_of_decodeAt, rfl, fun op => ?_⟩
  · obtain ⟨hidx, hlt⟩ := ht.opByte_toNat hop
    rwa [hidx, ← ht.length_eq]
  · rintro c rfl
    exact (ht.opByte_opMap hop).symm
  · exact (em (op = .illegal)).imp_right (mem_definedOps_iff op).2

end Sys2Proof
end

section
/-! PROOFS. A step from the bytes at `pc`, for any operation: cut short by LEN, or the execute stage of the instruction
its operand bytes spell; and Load as the first use (spec/50_engine.md R93, spec/40_load.md R60). -/

namespace Sys2Proof.Machine

/-! ### A step from the bytes of one operation, under given parameters -/

section
variable {p : Params} {s : State} {b0 : Byte} {op : Opcode}

/-- D9: the bound on the whole instruction comes before anything is known of its operand bytes. -/
theorem stepAt_of_truncated (hrun : s.run = .running) (hb0 : s.buf.byteAt s.pc.toNat = some b0)
    (hop : opMap p.opTable b0 = op) (h : s.len < s.next op.ilen) :
    stepAt p s = .next (s.raiseFault (.pcOutOfRange (s.next op.ilen))) := by
  subst hop
  exact stepWith_of_truncated hrun hb0 h

theorem stepAt_of_operands {bs : List Byte} {i : Instr} (hrun : s.run = .running)
    (hop : opMap p.opTable b0 = op) (hbytes : s.bytesAt s.pc.toNat (b0 :: bs))
    (hlen : (b0 :: bs).length = op.ilen) (hdecode : decodeOperands b0 op bs = some (i, [])) :
    stepAt p s = execAt p.overflow i s := by
  subst hop
  exact stepWith_of_bytes hrun hlen hbytes (decodeAt_cons_eq_ok_iff.2 hdecode)

end

/-- `pc <- next` in the bits of the program counter, `s` the state the instruction began in. -/
theorem setPc_next (s t : State) (n : Nat) : t.setPc (s.next n) = { t with pc := s.pc + BitVec.ofNat 32 n } := by
  simp [State.setPc, State.next, BitVec.ofNat_add]

/-! ### The immediate as a number -/

/-- The two bytes of an immediate, big-endian: `(b << 8) | c` is `b * 256 + c` (R25, R45). -/
theorem joinWord_toNat (b c : Byte) : (joinWord b c).toNat = b.toNat * 256 + c.toNat := by
  have hb : b.toNat < 2 ^ 8 := b.isLt
  have hc : c.toNat < 2 ^ 8 := c.isLt
  have hshift : (b.setWidth 16 <<< 8).toNat = b.toNat <<< 8 := by
    simp [Nat.shiftLeft_eq]; omega
  have hlow : (c.setWidth 16).toNat = c.toNat := by simp; omega
  calc (joinWord b c).toNat = b.toNat <<< 8 ||| c.toNat := by rw [joinWord, BitVec.toNat_or, hshift, hlow]
    _ = b.toNat <<< 8 + c.toNat := (Nat.shiftLeft_add_eq_or_of_lt hc _).symm
    _ = b.toNat * 256 + c.toNat := by rw [Nat.shiftLeft_eq]

theorem zext16_joinWord (b c : Byte) : zext16 (joinWord b c) = BitVec.ofNat 32 (b.toNat * 256 + c.toNat) := by
  rw [← joinWord_toNat, BitVec.ofNat_toNat, zext16]

/-! ### Load -/

theorem execLoad_of_invalid {rd : Byte} (imm : Half) (s : State) (h : 32 ≤ rd.toNat) :
    execLoad rd imm s = .next (s.raiseFault (.registerIndexOutOfRange rd)) := by
  simp [execLoad, regIndex_error h]

/-- A whole Load's step is its execute stage, under every OPMAP and every ARITH_OVERFLOW. -/
theorem stepAt_load {p : Params} {s : State} {b0 rd b2 b3 : Byte} (hrun : s.run = .running)
    (hop : opMap p.opTable b0 = .load) (hbytes : s.bytesAt s.pc.toNat [b0, rd, b2, b3]) :
    stepAt p s = execLoad rd (joinWord b2 b3) s :=
  stepAt_of_operands hrun hop hbytes rfl rfl

/-- Settles O18: the truncated Load, then the whole one with a bad and with a good index byte. -/
theorem loadStepFollowsItsRule : Obligations.LoadStepFollowsItsRule := by
  unfold Obligations.LoadStepFollowsItsRule
  refine ⟨rfl, fun p s b0 hrun hb0 hop =>
    ⟨stepAt_of_truncated hrun hb0 hop, fun rd b2 b3 hbytes => ⟨fun hbad => ?badIndex, fun hrd => ?result⟩⟩⟩
  case badIndex =>
    rw [stepAt_load hrun hop hbytes]
    exact execLoad_of_invalid _ s hbad
  case result =>
    rw [stepAt_load hrun hop hbytes, execLoad_of_valid _ s hrd, setPc_next, zext16_joinWord]
    rfl

end Sys2Proof.Machine
end

section
/-! PROOFS. Add, Sub and Mul as one rule on the exact signed result, in range and out of it; and what the arithmetic
instructions have to do with `eq` and with `rem` (spec/41_arithmetic.md R62 to R65, R68, R69). -/

namespace Sys2Proof.Machine

/-! ### Narrowing, in range and out of it -/

theorem narrow_of_inRange_or_wrap {m : ArithOverflow} {e : Int} (h : (-2 ^ 31 ≤ e ∧ e ≤ 2 ^ 31 - 1) ∨ m = .wrap) :
    narrow m e = .ok (to32 e) := by
  rcases h with hin | rfl
  · exact narrow_fits m e ((fits32_iff e).2 hin)
  · exact narrow_wrap e

theorem narrow_fault_of_outOfRange {e : Int} (h : ¬ (-2 ^ 31 ≤ e ∧ e ≤ 2 ^ 31 - 1)) :
    narrow .fault e = .error .arithmeticOverflow := by
  have hfits : fits32 e = false := Bool.eq_false_iff.2 (mt (fits32_iff e).1 h)
  rw [narrow_eq, if_pos ⟨hfits, rfl⟩]

/-! ### The index bytes, and the shape of Add, Sub and Mul -/

/-- The index byte that a fault names: the first above 31, in encoding order (R94). -/
abbrev firstBadIndex (bs : List Byte) : Option Byte := bs.find? fun b => decide (32 ≤ b.toNat)

theorem valid_or_firstBadIndex (v w z : Byte) :
    (v.toNat < 32 ∧ w.toNat < 32 ∧ z.toNat < 32) ∨ ∃ b, firstBadIndex [v, w, z] = some b := by
  cases h : firstBadIndex [v, w, z] with
  | none => left; simpa using h
  | some b => exact .inr ⟨b, rfl⟩

/-- D8: three index bytes are checked in encoding order. -/
theorem regIndex3_of_firstBadIndex {v w z b : Byte} (h : firstBadIndex [v, w, z] = some b) :
    regIndex3 v w z = .error (.registerIndexOutOfRange b) := by
  rcases regIndex3_cases v w z with ⟨hv, hw, hz, -⟩ | ⟨hv, e⟩ | ⟨hv, hw, e⟩ | ⟨hv, hw, hz, e⟩
  · simp [Nat.not_le.2 hv, Nat.not_le.2 hw, Nat.not_le.2 hz] at h
  · obtain rfl : v = b := by simpa [hv] using h
    exact e
  · obtain rfl : w = b := by simpa [Nat.not_le.2 hv, hw] using h
    exact e
  · obtain rfl : z = b := by simpa [Nat.not_le.2 hv, Nat.not_le.2 hw, hz] using h
    exact e

theorem execDivAt_of_badIndex {rs1 rs2 rd v : Byte} (m : ArithOverflow) (s : State)
    (h : firstBadIndex [rs1, rs2, rd] = some v) :
    execDivAt m rs1 rs2 rd s = .next (s.raiseFault (.registerIndexOutOfRange v)) := by
  simp [execDivAt, regIndex3_of_firstBadIndex h]

theorem arith3_of_badIndex {rs1 rs2 rd v : Byte} (alu : Word → Word → Except EngineFault Word) (s : State)
    (h : firstBadIndex [rs1, rs2, rd] = some v) :
    arith3 alu rs1 rs2 rd s = .next (s.raiseFault (.registerIndexOutOfRange v)) := by
  simp [arith3, regIndex3_of_firstBadIndex h]

section
variable {alu : Word → Word → Except EngineFault Word} {rs1 rs2 rd : Byte} {s : State}

theorem arith3_of_ok {v : Word} (h1 : rs1.toNat < 32) (h2 : rs2.toNat < 32) (h : rd.toNat < 32)
    (halu : alu (s.x ⟨rs1.toNat, h1⟩) (s.x ⟨rs2.toNat, h2⟩) = .ok v) :
    arith3 alu rs1 rs2 rd s = .next ((s.setX ⟨rd.toNat, h⟩ v).setPc (s.next 4)) := by
  rw [arith3_of_valid alu s h1 h2 h, halu]; rfl

theorem arith3_of_error {f : EngineFault} (h1 : rs1.toNat < 32) (h2 : rs2.toNat < 32) (h : rd.toNat < 32)
    (halu : alu (s.x ⟨rs1.toNat, h1⟩) (s.x ⟨rs2.toNat, h2⟩) = .error f) :
    arith3 alu rs1 rs2 rd s = .next (s.raiseFault f) := by
  rw [arith3_of_valid alu s h1 h2 h, halu]; rfl

end

/-! ### Add, Sub and Mul, each by its operation on integers -/

/-- The operation on exact integers that each of the three narrows (R63 to R65). -/
def exactRules : List (Opcode × (Int → Int → Int)) :=
  [(.add, fun a b => a + b), (.sub, fun a b => a - b), (.mul, fun a b => a * b)]

/-- An operation on the signed values, narrowed; `aluAdd`, `aluSub` and `aluMul` are this at `exactRules`. -/
def aluExact (f : Int → Int → Int) (m : ArithOverflow) (a b : Word) : Except EngineFault Word :=
  narrow m (f (sVal a) (sVal b))

theorem ilen_of_mem_exactRules {c : Opcode × (Int → Int → Int)} (hc : c ∈ exactRules) : c.1.ilen = 4 := by
  simp only [exactRules, List.mem_cons, List.not_mem_nil, or_false] at hc
  rcases hc with rfl | rfl | rfl <;> rfl

/-- A whole Add, Sub or Mul steps as `arith3` on its exact operation, under every OPMAP and every ARITH_OVERFLOW. -/
theorem stepAt_exactRule {c : Opcode × (Int → Int → Int)} (hc : c ∈ exactRules) {p : Params} {s : State}
    {b0 rs1 rs2 rd : Byte} (hrun : s.run = .running) (hop : opMap p.opTable b0 = c.1)
    (hbytes : s.bytesAt s.pc.toNat [b0, rs1, rs2, rd]) :
    stepAt p s = arith3 (aluExact c.2 p.overflow) rs1 rs2 rd s := by
  simp only [exactRules, List.mem_cons, List.not_mem_nil, or_false] at hc
  rcases hc with rfl | rfl | rfl
  case inl => exact stepAt_of_operands (i := .add rs1 rs2 rd) hrun hop hbytes rfl rfl
  case inr.inl => exact stepAt_of_operands (i := .sub rs1 rs2 rd) hrun hop hbytes rfl rfl
  case inr.inr => exact stepAt_of_operands (i := .mul rs1 rs2 rd) hrun hop hbytes rfl rfl

/-- Settles O19: the truncated instruction, then the whole one with a bad index byte, with a result that is kept, and
with one that overflows where ARITH_OVERFLOW is fault. -/
theorem addSubMulStepsFollowTheirRules : Obligations.AddSubMulStepsFollowTheirRules := by
  unfold Obligations.AddSubMulStepsFollowTheirRules
  refine ⟨rfl, rfl, rfl, fun c hc p s b0 hrun hb0 hop => ⟨fun hcut => ?truncated, fun rs1 rs2 rd hbytes =>
    ⟨fun v hbad => ?badIndex, fun h1 h2 h e he => ⟨fun hkept => ?result, fun hout hm => ?overflow⟩⟩⟩⟩
  case truncated =>
    have hlen : c.1.ilen = 4 := ilen_of_mem_exactRules hc
    have hstep := stepAt_of_truncated hrun hb0 hop (hlen ▸ hcut)
    rwa [hlen] at hstep
  case badIndex =>
    rw [stepAt_exactRule hc hrun hop hbytes]
    exact arith3_of_badIndex _ s hbad
  all_goals
    have halu : aluExact c.2 p.overflow (s.x ⟨rs1.toNat, h1⟩) (s.x ⟨rs2.toNat, h2⟩) = narrow p.overflow e := by
      rw [he, x_eq_getElem, x_eq_getElem]; rfl
    rw [stepAt_exactRule hc hrun hop hbytes]
  case result =>
    rw [arith3_of_ok h1 h2 h (halu.trans (narrow_of_inRange_or_wrap hkept)), setPc_next]
    rfl
  case overflow =>
    exact arith3_of_error h1 h2 h (halu.trans (hm ▸ narrow_fault_of_outOfRange hout))

/-! ### The flag and the remainder register -/

/-- An execute stage that leaves `eq` as it was, and started with another `eq` gives the same state but for it. -/
def IgnoresFlag (ex : State → Outcome) : Prop :=
  ∀ (s t : State), ex s = .next t → t.eqFlag = s.eqFlag ∧ ∀ b, ex (s.setEq b) = .next (t.setEq b)

theorem ignoresFlag_of_fault {ex : State → Outcome} {f : EngineFault}
    (hex : ∀ s, ex s = .next (s.raiseFault f)) : IgnoresFlag ex := by
  intro s t ht
  cases (hex s).symm.trans ht
  exact ⟨rfl, fun b => hex (s.setEq b)⟩

/-- A rule that computes `r` without the flag, then makes the writes `w`, none of them to the flag. -/
theorem ignoresFlag_of_commit_map {α : Type} {ex : State → Outcome} {r : State → Except EngineFault α}
    {w : State → α → State} (hex : ∀ s, ex s = commit s ((r s).map (w s))) (hr : ∀ s b, r (s.setEq b) = r s)
    (hflag : ∀ s a, (w s a).eqFlag = s.eqFlag) (hw : ∀ s a b, w (s.setEq b) a = (w s a).setEq b) :
    IgnoresFlag ex := by
  intro s t ht
  simp only [hex, hr] at ht ⊢
  cases hres : r s with
  | ok a =>
    rw [hres] at ht
    cases ht
    exact ⟨hflag s a, fun b => congrArg Host.Outcome.next (hw s a b)⟩
  | error f =>
    rw [hres] at ht
    cases ht
    exact ⟨rfl, fun _ => rfl⟩

theorem arith3_ignoresFlag (alu : Word → Word → Except EngineFault Word) (rs1 rs2 rd : Byte) :
    IgnoresFlag (arith3 alu rs1 rs2 rd) := by
  rcases valid_or_firstBadIndex rs1 rs2 rd with ⟨h1, h2, h⟩ | ⟨v, hbad⟩
  · exact ignoresFlag_of_commit_map (fun s => arith3_of_valid alu s h1 h2 h)
      (fun _ _ => rfl) (fun _ _ => rfl) (fun _ _ _ => rfl)
  · exact ignoresFlag_of_fault fun s => arith3_of_badIndex alu s hbad

theorem execDivAt_ignoresFlag (m : ArithOverflow) (rs1 rs2 rd : Byte) : IgnoresFlag (execDivAt m rs1 rs2 rd) := by
  rcases valid_or_firstBadIndex rs1 rs2 rd with ⟨h1, h2, h⟩ | ⟨v, hbad⟩
  · exact ignoresFlag_of_commit_map (fun s => execDivAt_of_valid m s h1 h2 h)
      (fun _ _ => rfl) (fun _ _ => rfl) (fun _ _ _ => rfl)
  · exact ignoresFlag_of_fault fun s => execDivAt_of_badIndex m s hbad

theorem execAt_ignoresFlag (m : ArithOverflow) {i : Instr} (hi : i.op ∈ [.add, .sub, .mul, .div]) :
    IgnoresFlag (execAt m i) := by
  cases i with
  | add rs1 rs2 rd | sub rs1 rs2 rd | mul rs1 rs2 rd => exact arith3_ignoresFlag _ rs1 rs2 rd
  | div rs1 rs2 rd => exact execDivAt_ignoresFlag m rs1 rs2 rd
  | _ => simp [Instr.op] at hi

/-- Only Div's rule has a write to `rem` in it; a fault writes nothing (R113). -/
theorem execAt_rem_of_ne_div (m : ArithOverflow) {i : Instr} {s t : State} (hi : i.op ≠ .div)
    (ht : execAt m i s = .next t) : t.rem = s.rem := by
  cases i with
  | load rd imm => rcases execLoad_next ht with ⟨f, rfl⟩ | ⟨-, rfl⟩ <;> rfl
  | add rs1 rs2 rd | sub rs1 rs2 rd | mul rs1 rs2 rd =>
    rcases arith3_next ht with ⟨f, rfl⟩ | ⟨-, -, -, v, -, rfl⟩ <;> rfl
  | div rs1 rs2 rd => exact absurd rfl hi
  | eq r1 r2 pad | neq r1 r2 pad | gte r1 r2 pad | lte r1 r2 pad | lt r1 r2 pad | gt r1 r2 pad =>
    rcases compare2_next ht with ⟨f, rfl⟩ | ⟨-, -, rfl⟩ <;> rfl
  | jmp rt => rcases execJmp_next ht with ⟨f, rfl⟩ | ⟨n, -, rfl⟩ <;> rfl
  | jmpf rt => rcases execJmpf_next ht with ⟨f, rfl⟩ | ⟨n, -, rfl⟩ <;> rfl
  | jmpb rt => rcases execJmpb_next ht with ⟨f, rfl⟩ | ⟨n, -, rfl⟩ <;> rfl
  | jmpe rt => rcases execJmpe_next ht with ⟨f, rfl⟩ | ⟨n, -, rfl⟩ <;> rfl
  | halt | illegal code => cases ht; rfl

/-- Settles O36: the flag by the two arithmetic shapes, `rem` by what each of the other instructions can answer. -/
theorem arithmeticIgnoresTheFlag : Obligations.ArithmeticIgnoresTheFlag := by
  unfold Obligations.ArithmeticIgnoresTheFlag
  exact ⟨fun m i s t hi ht => execAt_ignoresFlag m hi s t ht, fun m _ _ _ hi ht => execAt_rem_of_ne_div m hi ht⟩

end Sys2Proof.Machine
end

section
/-! PROOFS. Jmp and Jmpb as steps from their two bytes, with each of their faults and their targets
(spec/42_jumps.md R70, R71, R73). -/

namespace Sys2Proof.Machine

/-! ### Targets in the bits of the program counter -/

theorem setPc_toNat (s : State) (v : Word) : s.setPc v.toNat = { s with pc := v } := by
  simp [State.setPc]

/-- A distance back from `next` that stays at or above 0, in 32-bit arithmetic. -/
theorem setPc_next_sub (s : State) (n : Nat) {d : Word} (h : d.toNat ≤ s.next n) :
    s.setPc (s.next n - d.toNat) = { s with pc := s.pc + BitVec.ofNat 32 n - d } := by
  have hnext : BitVec.ofNat 32 (s.next n) = s.pc + BitVec.ofNat 32 n := congrArg State.pc (setPc_next s s n)
  rw [State.setPc, ← BitVec.ofNat_sub_ofNat_of_le _ _ d.isLt h, hnext, BitVec.ofNat_toNat, BitVec.setWidth_eq]

/-- The bytes of an instruction that stand in the buffer end at or before LEN. -/
theorem next_le_len_of_bytesAt {s : State} {bs : List Byte} (hne : bs ≠ [])
    (hbytes : s.bytesAt s.pc.toNat bs) : s.next bs.length ≤ s.len := by
  have hpos : 0 < bs.length := List.length_pos_iff.2 hne
  have hlast := hbytes (bs.length - 1) (by omega)
  have hlt : s.pc.toNat + (bs.length - 1) < s.len := (byteAt_isSome_iff s.buf _).1 (by rw [hlast]; rfl)
  rw [State.next]; omega

/-! ### The faults of the execute stage -/

theorem execJmp_of_invalid {rt : Byte} (s : State) (h : 32 ≤ rt.toNat) :
    execJmp rt s = .next (s.raiseFault (.registerIndexOutOfRange rt)) := by
  simp [execJmp, regIndex_error h]

theorem execJmpb_of_invalid {rt : Byte} (s : State) (h : 32 ≤ rt.toNat) :
    execJmpb rt s = .next (s.raiseFault (.registerIndexOutOfRange rt)) := by
  simp [execJmpb, regIndex_error h]

theorem execJmp_of_gt {rt : Byte} {s : State} (h : rt.toNat < 32) (hn : s.len < (s.x ⟨rt.toNat, h⟩).toNat) :
    execJmp rt s = .next (s.raiseFault (.pcOutOfRange (s.x ⟨rt.toNat, h⟩).toNat)) := by
  rw [execJmp_of_valid s h, jumpTo_of_gt hn, commit_error]

theorem execJmpb_of_gt {rt : Byte} {s : State} (h : rt.toNat < 32) (hn : s.next 2 < (s.x ⟨rt.toNat, h⟩).toNat) :
    execJmpb rt s = .next (s.raiseFault (.jumpOffsetOutOfRange .underflow)) := by
  rw [execJmpb_of_valid s h, if_pos hn, commit_error]

/-! ### The step of a whole jump, under every OPMAP and every ARITH_OVERFLOW -/

section
variable {p : Params} {s : State} {b0 rt : Byte}

theorem stepAt_jmp (hrun : s.run = .running) (hop : opMap p.opTable b0 = .jmp)
    (hbytes : s.bytesAt s.pc.toNat [b0, rt]) : stepAt p s = execJmp rt s :=
  stepAt_of_operands hrun hop hbytes rfl rfl

theorem stepAt_jmpb (hrun : s.run = .running) (hop : opMap p.opTable b0 = .jmpb)
    (hbytes : s.bytesAt s.pc.toNat [b0, rt]) : stepAt p s = execJmpb rt s :=
  stepAt_of_operands hrun hop hbytes rfl rfl

end

/-- Settles O21: the truncated Jmp, then the whole one with a bad index byte, with a target past LEN, and with one up to
LEN. -/
theorem jmpStepFollowsItsRule : Obligations.JmpStepFollowsItsRule := by
  unfold Obligations.JmpStepFollowsItsRule
  refine ⟨rfl, fun p s b0 hrun hb0 hop => ⟨stepAt_of_truncated hrun hb0 hop, fun rt hbytes => ?whole⟩⟩
  rw [stepAt_jmp hrun hop hbytes]
  refine ⟨execJmp_of_invalid s, fun h => ?valid⟩
  rw [← x_eq_getElem s rt.toNat h]
  refine ⟨execJmp_of_gt h, fun hin => ?target⟩
  rw [execJmp_of_le h hin, setPc_toNat]

/-- Settles O23: the truncated Jmpb, then the whole one with a bad index byte, with a distance past `next`, and with one
up to `next`, whose target is inside the buffer because `next` is. -/
theorem jmpbStepFollowsItsRule : Obligations.JmpbStepFollowsItsRule := by
  unfold Obligations.JmpbStepFollowsItsRule
  refine ⟨rfl, fun p s b0 hrun hb0 hop => ⟨stepAt_of_truncated hrun hb0 hop, fun rt hbytes => ?whole⟩⟩
  have hnext : s.next 2 ≤ s.len := next_le_len_of_bytesAt (List.cons_ne_nil _ _) hbytes
  rw [stepAt_jmpb hrun hop hbytes]
  refine ⟨execJmpb_of_invalid s, fun h => ?valid⟩
  rw [← x_eq_getElem s rt.toNat h]
  refine ⟨execJmpb_of_gt h, fun hback => ?target⟩
  have hpc := setPc_next_sub s 2 hback
  refine ⟨by rw [execJmpb_of_le h hback, hpc], ?inside⟩
  calc (s.pc + 2#32 - s.x ⟨rt.toNat, h⟩).toNat
      = (s.setPc (s.next 2 - (s.x ⟨rt.toNat, h⟩).toNat)).pc.toNat := by rw [hpc]
    _ = s.next 2 - (s.x ⟨rt.toNat, h⟩).toNat := setPc_pc_toNat (by omega)
    _ ≤ s.len := by omega

end Sys2Proof.Machine
end

section
/-! PROOFS. The six comparisons as one rule on the signed values, and each step of theirs with its faults and its flag
(spec/43_compare.md R76 to R82). -/

namespace Sys2Proof.Machine

/-! ### The index bytes of a comparison -/

/-- D8: two index bytes are checked in encoding order. -/
theorem regIndex2_of_firstBadIndex {v w b : Byte} (h : firstBadIndex [v, w] = some b) :
    regIndex2 v w = .error (.registerIndexOutOfRange b) := by
  rcases regIndex2_cases v w with ⟨hv, hw, -⟩ | ⟨hv, e⟩ | ⟨hv, hw, e⟩
  · simp [Nat.not_le.2 hv, Nat.not_le.2 hw] at h
  · obtain rfl : v = b := by simpa [hv] using h
    exact e
  · obtain rfl : w = b := by simpa [Nat.not_le.2 hv, hw] using h
    exact e

theorem compare2_of_badIndex {r1 r2 v : Byte} (rel : Word → Word → Bool) (s : State)
    (h : firstBadIndex [r1, r2] = some v) :
    compare2 rel r1 r2 s = .next (s.raiseFault (.registerIndexOutOfRange v)) := by
  simp [compare2, regIndex2_of_firstBadIndex h]

/-! ### The comparisons, each by its relation between integers -/

/-- The relation whose truth each of the six puts into `eq` (R77 to R82). -/
def signedRelations : List (Opcode × (Int → Int → Bool)) :=
  [(.eq, fun a b => decide (a = b)), (.neq, fun a b => decide (a ≠ b)), (.gte, fun a b => decide (a ≥ b)),
    (.lte, fun a b => decide (a ≤ b)), (.lt, fun a b => decide (a < b)), (.gt, fun a b => decide (a > b))]

/-- A relation on the signed values; `relEq` to `relGt` are this at `signedRelations`. -/
def relSigned (f : Int → Int → Bool) (a b : Word) : Bool := f (sVal a) (sVal b)

theorem ilen_of_mem_signedRelations {c : Opcode × (Int → Int → Bool)} (hc : c ∈ signedRelations) : c.1.ilen = 4 := by
  simp only [signedRelations, List.mem_cons, List.not_mem_nil, or_false] at hc
  rcases hc with rfl | rfl | rfl | rfl | rfl | rfl <;> rfl

/-- A whole comparison steps as `compare2` on its relation, under every OPMAP, whatever its pad byte holds (R47). -/
theorem stepAt_signedRelation {c : Opcode × (Int → Int → Bool)} (hc : c ∈ signedRelations) {p : Params} {s : State}
    {b0 r1 r2 pad : Byte} (hrun : s.run = .running) (hop : opMap p.opTable b0 = c.1)
    (hbytes : s.bytesAt s.pc.toNat [b0, r1, r2, pad]) :
    stepAt p s = compare2 (relSigned c.2) r1 r2 s := by
  simp only [signedRelations, List.mem_cons, List.not_mem_nil, or_false] at hc
  rcases hc with rfl | rfl | rfl | rfl | rfl | rfl
  · exact stepAt_of_operands (i := .eq r1 r2 pad) hrun hop hbytes rfl rfl
  · exact stepAt_of_operands (i := .neq r1 r2 pad) hrun hop hbytes rfl rfl
  · exact stepAt_of_operands (i := .gte r1 r2 pad) hrun hop hbytes rfl rfl
  · exact stepAt_of_operands (i := .lte r1 r2 pad) hrun hop hbytes rfl rfl
  · exact stepAt_of_operands (i := .lt r1 r2 pad) hrun hop hbytes rfl rfl
  · exact stepAt_of_operands (i := .gt r1 r2 pad) hrun hop hbytes rfl rfl

/-- Settles O24: the truncated comparison, then the whole one with a bad index byte and with two good ones. -/
theorem comparisonStepsFollowTheirRules : Obligations.ComparisonStepsFollowTheirRules := by
  unfold Obligations.ComparisonStepsFollowTheirRules
  refine ⟨rfl, rfl, rfl, rfl, rfl, rfl, fun c hc p s b0 hrun hb0 hop =>
    ⟨fun hcut => ?truncated, fun r1 r2 pad hbytes => ?whole⟩⟩
  case truncated =>
    have hlen : c.1.ilen = 4 := ilen_of_mem_signedRelations hc
    have hstep := stepAt_of_truncated hrun hb0 hop (hlen ▸ hcut)
    rwa [hlen] at hstep
  case whole =>
    rw [stepAt_signedRelation hc hrun hop hbytes]
    refine ⟨fun v hbad => compare2_of_badIndex _ s hbad, fun h1 h2 => ?flag⟩
    rw [compare2_of_valid _ s h1 h2, setPc_next, x_eq_getElem, x_eq_getElem]
    rfl

end Sys2Proof.Machine
end

section
/-! PROOFS. The decoder on the bytes the encoder writes, and the one reason it turns bytes away
(spec/30_encoding.md R36, R44, R54). -/

namespace Sys2Proof

/-! ### The encoder's bytes, decoded -/

/-- The two bytes that R40 splits an immediate into join to it again. -/
theorem joinWord_immHigh_immLow (imm : Half) : joinWord (immHigh imm) (immLow imm) = imm := by
  ext k hk
  by_cases hlow : k < 8
  · simp [joinWord, immHigh, immLow, hk, hlow]
  · have hadd : 8 + (k - 8) = k := by omega
    have hhigh : k - 8 < 8 := by omega
    simp [joinWord, immHigh, immLow, hk, hlow, hadd, hhigh]

/-- The operand reads take exactly what the encoder writes after the opcode byte. An Illegal has no operand: its
opcode byte itself is what it carries. -/
theorem decodeOperands_tail_encodeAt (t : OpTable) (b0 : Byte) {i : Instr} (hi : i.op ≠ .illegal) (rest : List Byte) :
    decodeOperands b0 i.op ((encodeAt t i).tail ++ rest) = some (i, rest) := by
  cases i with
  | illegal code => exact absurd rfl hi
  | load rd imm =>
    calc decodeOperands b0 .load (rd :: immHigh imm :: immLow imm :: rest)
        = some (.load rd (joinWord (immHigh imm) (immLow imm)), rest) := rfl
      _ = some (.load rd imm, rest) := by rw [joinWord_immHigh_immLow]
  | _ => rfl

/-- Under a valid table the bytes of a well-formed instruction decode to it, whatever follows them. -/
theorem decodeAt_encodeAt {t : OpTable} (ht : t.valid) {i : Instr} (hi : i.wellFormed = true) (rest : List Byte) :
    decodeAt t (encodeAt t i ++ rest) = .ok (i, rest) := by
  by_cases hop : i.op = .illegal
  · cases i with
    | illegal code =>
      exact decodeAt_of_opMap_illegal ((ht.opMap_eq_illegal_iff code).2 (of_decide_eq_true hi)) rest
    | _ => cases hop
  · rw [encodeAt_eq_opByte_cons t hop, List.cons_append, decodeAt_cons_eq_ok_iff, ht.opMap_opByte hop]
    exact decodeOperands_tail_encodeAt t _ hop rest

theorem decodeAt_encodeAt_self {t : OpTable} (ht : t.valid) {i : Instr} (hi : i.wellFormed = true) :
    decodeAt t (encodeAt t i) = .ok (i, []) := by
  simpa using decodeAt_encodeAt ht hi []

/-- Settles O1: a defined operation by its operand reads, an Illegal by the bytes OPMAP leaves to it. -/
theorem decodeInvertsEncode : Obligations.DecodeInvertsEncode := by
  unfold Obligations.DecodeInvertsEncode
  exact fun _ _ rest ht hi => decodeAt_encodeAt ht hi rest

/-! ### Missing bytes, the opcode byte counted -/

theorem decodeJ_eq_none_iff (mk : Byte → Instr) (bs : List Byte) : decodeJ mk bs = none ↔ bs.length + 1 < 2 := by
  match bs with
  | [] => simp [decodeJ, readByte]
  | v :: bs => simp [decodeJ, readByte]

theorem decodeL_eq_none_iff (mk : Byte → Half → Instr) (bs : List Byte) :
    decodeL mk bs = none ↔ bs.length + 1 < 4 := by
  match bs with
  | [] | [v] | [v, b] => simp [decodeL, readByte, readWord]
  | v :: b :: c :: bs => simp [decodeL, readByte, readWord]

theorem decodeRC_eq_none_iff (mk : Byte → Byte → Byte → Instr) (bs : List Byte) :
    decodeRC mk bs = none ↔ bs.length + 1 < 4 := by
  match bs with
  | [] | [u] | [u, v] => simp [decodeRC, readByte]
  | u :: v :: w :: bs => simp [decodeRC, readByte]

/-- The operand reads fail exactly on fewer bytes than the format has after its opcode byte (R38 to R42). -/
theorem decodeOperands_eq_none_iff (b0 : Byte) (op : Opcode) (bs : List Byte) :
    decodeOperands b0 op bs = none ↔ bs.length + 1 < op.ilen := by
  cases op
  case load => exact decodeL_eq_none_iff _ bs
  case jmp | jmpf | jmpb | jmpe => exact decodeJ_eq_none_iff _ bs
  case halt | illegal => simp [decodeOperands, Opcode.ilen]
  all_goals exact decodeRC_eq_none_iff _ bs

theorem decodeAt_nil_eq_error_iff (t : OpTable) (e : DecodeError) : decodeAt t [] = .error e ↔ e = .noOpcode := by
  simp [decodeAt, eq_comm]

theorem decodeAt_cons_eq_error_iff {t : OpTable} {b0 : Byte} {bs : List Byte} {e : DecodeError} :
    decodeAt t (b0 :: bs) = .error e ↔
      decodeOperands b0 (opMap t b0) bs = none ∧ e = .truncated (opMap t b0).ilen := by
  cases h : decodeOperands b0 (opMap t b0) bs <;> simp [decodeAt, h, eq_comm]

/-- Settles O3: no opcode byte, or an opcode byte whose operand reads run out. -/
theorem decodeRejectsOnlyMissingBytes : Obligations.DecodeRejectsOnlyMissingBytes := by
  unfold Obligations.DecodeRejectsOnlyMissingBytes
  intro t bs e
  cases bs with
  | nil => simp [decodeAt_nil_eq_error_iff]
  | cons b0 bs => simp [decodeAt_cons_eq_error_iff, decodeOperands_eq_none_iff]

/-- Settles O6: each word by evaluation. -/
theorem specWordsDecode : Obligations.SpecWordsDecode := ⟨rfl, rfl, rfl, rfl, rfl, rfl, rfl⟩

end Sys2Proof
end

section
/-! PROOFS. Every answer of the execute stage: the faults an instruction can raise, each with its condition, and the
states it can write; and what follows for every instruction alike, its frame first (spec/50_engine.md R94 to R96,
spec/60_exceptions.md R107 to R114). -/

namespace Sys2Proof.Machine

/-! ### The first bad index byte, for every instruction -/

theorem firstBadIndex_singleton {v b : Byte} (h : firstBadIndex [v] = some b) : v = b ∧ 32 ≤ b.toNat := by
  have hmem : b ∈ [v] := List.mem_of_find?_eq_some h
  obtain rfl : b = v := List.mem_singleton.1 hmem
  exact ⟨rfl, by simpa using List.find?_some h⟩

theorem execJmpf_of_invalid {rt : Byte} (s : State) (h : 32 ≤ rt.toNat) :
    execJmpf rt s = .next (s.raiseFault (.registerIndexOutOfRange rt)) := by
  simp [execJmpf, regIndex_error h]

theorem execJmpe_of_invalid {rt : Byte} (s : State) (h : 32 ≤ rt.toNat) :
    execJmpe rt s = .next (s.raiseFault (.registerIndexOutOfRange rt)) := by
  simp [execJmpe, regIndex_error h]

theorem execAt_of_badIndex (m : ArithOverflow) {i : Instr} (s : State) {v : Byte}
    (h : firstBadIndex i.regBytes = some v) :
    execAt m i s = .next (s.raiseFault (.registerIndexOutOfRange v)) := by
  cases i with
  | load rd imm =>
    obtain ⟨rfl, hv⟩ := firstBadIndex_singleton h
    exact execLoad_of_invalid imm s hv
  | add rs1 rs2 rd | sub rs1 rs2 rd | mul rs1 rs2 rd => exact arith3_of_badIndex _ s h
  | div rs1 rs2 rd => exact execDivAt_of_badIndex m s h
  | eq r1 r2 pad | neq r1 r2 pad | gte r1 r2 pad | lte r1 r2 pad | lt r1 r2 pad | gt r1 r2 pad =>
    exact compare2_of_badIndex _ s h
  | jmp rt =>
    obtain ⟨rfl, hv⟩ := firstBadIndex_singleton h
    exact execJmp_of_invalid s hv
  | jmpf rt =>
    obtain ⟨rfl, hv⟩ := firstBadIndex_singleton h
    exact execJmpf_of_invalid s hv
  | jmpb rt =>
    obtain ⟨rfl, hv⟩ := firstBadIndex_singleton h
    exact execJmpb_of_invalid s hv
  | jmpe rt =>
    obtain ⟨rfl, hv⟩ := firstBadIndex_singleton h
    exact execJmpe_of_invalid s hv
  | halt | illegal code => cases h

/-- Settles O41: the index check is the first thing each instruction's rule does. -/
theorem firstBadIndexFaults : Obligations.FirstBadIndexFaults := by
  unfold Obligations.FirstBadIndexFaults
  intro m i s v hv
  exact ⟨execAt_of_badIndex m s hv, (exec_eq_execAt i s).trans (execAt_of_badIndex _ s hv)⟩

/-! ### Every answer of the execute stage -/

/-- The faults an instruction can raise at a state under a given ARITH_OVERFLOW, each with the condition of its rule
(spec/60_exceptions.md R108 to R112). -/
inductive Raises (m : ArithOverflow) (s : State) : Instr → EngineFault → Prop
  | badIndex {i : Instr} {v : Byte} (h : firstBadIndex i.regBytes = some v) :
      Raises m s i (.registerIndexOutOfRange v)
  | zeroDivisor {rs1 rs2 rd : Byte} (h2 : rs2.toNat < 32) (h0 : sVal (s.x ⟨rs2.toNat, h2⟩) = 0) :
      Raises m s (.div rs1 rs2 rd) .divideByZero
  | overflow {i : Instr} (hi : i.op ∈ [.add, .sub, .mul, .div]) (hm : m = .fault) :
      Raises m s i .arithmeticOverflow
  | jmp {rt : Byte} (h : rt.toNat < 32) (ht : s.len < (s.x ⟨rt.toNat, h⟩).toNat) :
      Raises m s (.jmp rt) (.pcOutOfRange (s.x ⟨rt.toNat, h⟩).toNat)
  | jmpe {rt : Byte} (h : rt.toNat < 32) (heq : s.eqFlag = true) (ht : s.len < (s.x ⟨rt.toNat, h⟩).toNat) :
      Raises m s (.jmpe rt) (.pcOutOfRange (s.x ⟨rt.toNat, h⟩).toNat)
  | jmpf {rt : Byte} (h : rt.toNat < 32) (ht : s.len < s.next 2 + (s.x ⟨rt.toNat, h⟩).toNat)
      (hfits : s.next 2 + (s.x ⟨rt.toNat, h⟩).toNat < 2 ^ 32) :
      Raises m s (.jmpf rt) (.pcOutOfRange (s.next 2 + (s.x ⟨rt.toNat, h⟩).toNat))
  | jmpfOverflow {rt : Byte} (h : rt.toNat < 32) (ht : 2 ^ 32 ≤ s.next 2 + (s.x ⟨rt.toNat, h⟩).toNat) :
      Raises m s (.jmpf rt) (.jumpOffsetOutOfRange .overflow)
  | jmpbUnderflow {rt : Byte} (h : rt.toNat < 32) (ht : s.next 2 < (s.x ⟨rt.toNat, h⟩).toNat) :
      Raises m s (.jmpb rt) (.jumpOffsetOutOfRange .underflow)

/-- The destination byte of an instruction that writes a register. -/
def destByte : Instr → Option Byte
  | .load rd _ | .add _ _ rd | .sub _ _ rd | .mul _ _ rd | .div _ _ rd => some rd
  | _ => none

/-- The states an instruction can write when it raises no fault: which fields it writes, and for a Load with what. -/
inductive Writes (s : State) : Instr → State → Prop
  | load {rd : Byte} {imm : Half} (h : rd.toNat < 32) :
      Writes s (.load rd imm) ((s.setX ⟨rd.toNat, h⟩ (zext16 imm)).setPc (s.next 4))
  | arith {i : Instr} {rd : Byte} (hi : i.op ∈ [.add, .sub, .mul]) (hd : destByte i = some rd) (h : rd.toNat < 32)
      (v : Word) : Writes s i ((s.setX ⟨rd.toNat, h⟩ v).setPc (s.next 4))
  | div {rs1 rs2 rd : Byte} (h : rd.toNat < 32) (q r : Word) :
      Writes s (.div rs1 rs2 rd) (((s.setX ⟨rd.toNat, h⟩ q).setRem r).setPc (s.next 4))
  | compare {i : Instr} (hi : i.op ∈ [.eq, .neq, .gte, .lte, .lt, .gt]) (b : Bool) :
      Writes s i ((s.setEq b).setPc (s.next 4))
  | jump {i : Instr} {n : Nat} (hi : i.op ∈ [.jmp, .jmpf, .jmpb, .jmpe]) (hn : n ≤ s.len ∨ n ≤ s.next 2) :
      Writes s i (s.setPc n)
  | halt : Writes s .halt (((s.emit .haltNotice).setPc (s.next 1)).haltWith .haltOp)
  | illegal {code : Byte} :
      Writes s (.illegal code) (((s.emit .illegalNotice).setPc (s.next 1)).haltWith .illegalOp)

/-- An answer that is a fault the instruction can raise, or a state it can write. -/
def Answers (m : ArithOverflow) (s : State) (i : Instr) (o : Outcome) : Prop :=
  (∃ f, Raises m s i f ∧ o = .next (s.raiseFault f)) ∨ ∃ t, Writes s i t ∧ o = .next t

section
variable {m : ArithOverflow} {s : State} {i : Instr}

theorem answers_fault {f : EngineFault} (h : Raises m s i f) : Answers m s i (.next (s.raiseFault f)) :=
  .inl ⟨f, h, rfl⟩

theorem answers_write {t : State} (h : Writes s i t) : Answers m s i (.next t) := .inr ⟨t, h, rfl⟩

theorem narrow_eq_error {e : Int} {f : EngineFault} (h : narrow m e = .error f) :
    f = .arithmeticOverflow ∧ m = .fault := by
  rw [narrow_eq] at h
  split at h
  · next hc => cases h; exact ⟨rfl, hc.2⟩
  · cases h

theorem aluDiv_eq_error {a b : Word} {f : EngineFault} (h : aluDiv m a b = .error f) :
    (f = .divideByZero ∧ sVal b = 0) ∨ (f = .arithmeticOverflow ∧ m = .fault) := by
  by_cases h0 : sVal b = 0
  · cases (aluDiv_zero m a b h0).symm.trans h
    exact .inl ⟨rfl, h0⟩
  · cases hq : narrow m (quotient a b) with
    | ok q => cases (aluDiv_ok h0 hq).symm.trans h
    | error g =>
      cases (aluDiv_overflow h0 hq).symm.trans h
      exact .inr (narrow_eq_error hq)

/-- Add, Sub and Mul: the result narrowed, or its overflow. -/
theorem arith3_answers {alu : Word → Word → Except EngineFault Word} {rs1 rs2 rd : Byte}
    (hi : i.op ∈ [.add, .sub, .mul]) (hd : destByte i = some rd) (halu : ∀ a b, ∃ e, alu a b = narrow m e)
    (h1 : rs1.toNat < 32) (h2 : rs2.toNat < 32) (h : rd.toNat < 32) :
    Answers m s i (arith3 alu rs1 rs2 rd s) := by
  have hop : i.op ∈ [.add, .sub, .mul, .div] := List.mem_append_left [Opcode.div] hi
  obtain ⟨e, he⟩ := halu (s.x ⟨rs1.toNat, h1⟩) (s.x ⟨rs2.toNat, h2⟩)
  cases hn : narrow m e with
  | ok v =>
    rw [arith3_of_ok h1 h2 h (he.trans hn)]
    exact answers_write (.arith hi hd h v)
  | error f =>
    obtain ⟨rfl, hm⟩ := narrow_eq_error hn
    rw [arith3_of_error h1 h2 h (he.trans hn)]
    exact answers_fault (.overflow hop hm)

theorem execDivAt_answers {rs1 rs2 rd : Byte} (h1 : rs1.toNat < 32) (h2 : rs2.toNat < 32) (h : rd.toNat < 32) :
    Answers m s (.div rs1 rs2 rd) (execDivAt m rs1 rs2 rd s) := by
  rw [execDivAt_of_valid m s h1 h2 h]
  cases hr : aluDiv m (s.x ⟨rs1.toNat, h1⟩) (s.x ⟨rs2.toNat, h2⟩) with
  | ok qr => exact answers_write (.div h qr.1 qr.2)
  | error f =>
    rcases aluDiv_eq_error hr with ⟨rfl, h0⟩ | ⟨rfl, hm⟩
    · exact answers_fault (.zeroDivisor h2 h0)
    · exact answers_fault (.overflow (by simp [Instr.op]) hm)

theorem compare2_answers (hi : i.op ∈ [.eq, .neq, .gte, .lte, .lt, .gt]) (rel : Word → Word → Bool) {r1 r2 : Byte}
    (h1 : r1.toNat < 32) (h2 : r2.toNat < 32) : Answers m s i (compare2 rel r1 r2 s) := by
  rw [compare2_of_valid rel s h1 h2]
  exact answers_write (.compare hi _)

theorem execJmp_answers {rt : Byte} (h : rt.toNat < 32) : Answers m s (.jmp rt) (execJmp rt s) := by
  rcases le_or_gt (s.x ⟨rt.toNat, h⟩).toNat s.len with hle | hgt
  · rw [execJmp_of_le h hle]
    exact answers_write (.jump (by simp [Instr.op]) (.inl hle))
  · rw [execJmp_of_gt h hgt]
    exact answers_fault (.jmp h hgt)

theorem execJmpf_of_overflow {rt : Byte} (h : rt.toNat < 32)
    (hn : 2 ^ 32 ≤ s.next 2 + (s.x ⟨rt.toNat, h⟩).toNat) :
    execJmpf rt s = .next (s.raiseFault (.jumpOffsetOutOfRange .overflow)) := by
  rw [execJmpf_of_valid s h, if_pos hn, commit_error]

theorem execJmpf_of_gt {rt : Byte} (h : rt.toNat < 32) (hn : s.len < s.next 2 + (s.x ⟨rt.toNat, h⟩).toNat)
    (hfits : s.next 2 + (s.x ⟨rt.toNat, h⟩).toNat < 2 ^ 32) :
    execJmpf rt s = .next (s.raiseFault (.pcOutOfRange (s.next 2 + (s.x ⟨rt.toNat, h⟩).toNat))) := by
  rw [execJmpf_of_valid s h, if_neg (by omega), jumpTo_of_gt hn, commit_error]

theorem execJmpf_answers {rt : Byte} (h : rt.toNat < 32) : Answers m s (.jmpf rt) (execJmpf rt s) := by
  rcases le_or_gt (2 ^ 32) (s.next 2 + (s.x ⟨rt.toNat, h⟩).toNat) with hover | hfits
  · rw [execJmpf_of_overflow h hover]
    exact answers_fault (.jmpfOverflow h hover)
  · rcases le_or_gt (s.next 2 + (s.x ⟨rt.toNat, h⟩).toNat) s.len with hle | hgt
    · rw [execJmpf_of_le h hle]
      exact answers_write (.jump (by simp [Instr.op]) (.inl hle))
    · rw [execJmpf_of_gt h hgt hfits]
      exact answers_fault (.jmpf h hgt hfits)

theorem execJmpb_answers {rt : Byte} (h : rt.toNat < 32) : Answers m s (.jmpb rt) (execJmpb rt s) := by
  rcases le_or_gt (s.x ⟨rt.toNat, h⟩).toNat (s.next 2) with hle | hgt
  · rw [execJmpb_of_le h hle]
    exact answers_write (.jump (by simp [Instr.op]) (.inr (Nat.sub_le _ _)))
  · rw [execJmpb_of_gt h hgt]
    exact answers_fault (.jmpbUnderflow h hgt)

theorem execJmpe_of_gt {rt : Byte} (h : rt.toNat < 32) (heq : s.eqFlag = true)
    (hn : s.len < (s.x ⟨rt.toNat, h⟩).toNat) :
    execJmpe rt s = .next (s.raiseFault (.pcOutOfRange (s.x ⟨rt.toNat, h⟩).toNat)) := by
  rw [execJmpe_of_valid s h, if_pos heq, jumpTo_of_gt hn, commit_error]

theorem execJmpe_of_notTaken {rt : Byte} (h : rt.toNat < 32) (heq : s.eqFlag = false) :
    execJmpe rt s = .next (s.setPc (s.next 2)) := by
  rw [execJmpe_of_valid s h, if_neg (by simp [heq]), commit_ok]

theorem execJmpe_answers {rt : Byte} (h : rt.toNat < 32) : Answers m s (.jmpe rt) (execJmpe rt s) := by
  cases heq : s.eqFlag with
  | false =>
    rw [execJmpe_of_notTaken h heq]
    exact answers_write (.jump (by simp [Instr.op]) (.inr le_rfl))
  | true =>
    rcases le_or_gt (s.x ⟨rt.toNat, h⟩).toNat s.len with hle | hgt
    · rw [execJmpe_of_taken h heq hle]
      exact answers_write (.jump (by simp [Instr.op]) (.inl hle))
    · rw [execJmpe_of_gt h heq hgt]
      exact answers_fault (.jmpe h heq hgt)

end

/-- Everything the execute stage can answer: a bad index byte first, then by the shape of the instruction. -/
theorem execAt_answers (m : ArithOverflow) (i : Instr) (s : State) : Answers m s i (execAt m i s) := by
  cases hbad : firstBadIndex i.regBytes with
  | some v =>
    rw [execAt_of_badIndex m s hbad]
    exact answers_fault (.badIndex hbad)
  | none =>
    have hall : ∀ v ∈ i.regBytes, v.toNat < 32 := by simpa using hbad
    cases i with
    | load rd imm =>
      have h : rd.toNat < 32 := hall rd (by simp [Instr.regBytes])
      exact .inr ⟨_, .load h, execLoad_of_valid imm s h⟩
    | add rs1 rs2 rd | sub rs1 rs2 rd | mul rs1 rs2 rd =>
      simp only [Instr.regBytes, List.forall_mem_cons] at hall
      obtain ⟨h1, h2, h, -⟩ := hall
      exact arith3_answers (by simp [Instr.op]) rfl (fun _ _ => ⟨_, rfl⟩) h1 h2 h
    | div rs1 rs2 rd =>
      simp only [Instr.regBytes, List.forall_mem_cons] at hall
      obtain ⟨h1, h2, h, -⟩ := hall
      exact execDivAt_answers h1 h2 h
    | eq r1 r2 pad | neq r1 r2 pad | gte r1 r2 pad | lte r1 r2 pad | lt r1 r2 pad | gt r1 r2 pad =>
      simp only [Instr.regBytes, List.forall_mem_cons] at hall
      obtain ⟨h1, h2, -⟩ := hall
      exact compare2_answers (by simp [Instr.op]) _ h1 h2
    | jmp rt => exact execJmp_answers (hall rt (by simp [Instr.regBytes]))
    | jmpf rt => exact execJmpf_answers (hall rt (by simp [Instr.regBytes]))
    | jmpb rt => exact execJmpb_answers (hall rt (by simp [Instr.regBytes]))
    | jmpe rt => exact execJmpe_answers (hall rt (by simp [Instr.regBytes]))
    | halt => exact answers_write .halt
    | illegal code => exact answers_write .illegal

/-- The answers read backwards, from the next state. -/
theorem execAt_next {m : ArithOverflow} {i : Instr} {s t : State} (ht : execAt m i s = .next t) :
    (∃ f, Raises m s i f ∧ t = s.raiseFault f) ∨ Writes s i t := by
  rcases execAt_answers m i s with ⟨f, hf, e⟩ | ⟨u, hu, e⟩
  · cases e.symm.trans ht
    exact .inl ⟨f, hf, rfl⟩
  · cases e.symm.trans ht
    exact .inr hu

/-! ### What every instruction leaves unchanged -/

theorem getElem_setX_ne (s : State) (d : Fin 32) (v : Word) {n : Nat} (hn : n < 32) (hne : n ≠ d) :
    (s.setX d v).regs[n] = s.regs[n] := by
  rw [setX_regs]
  exact Vector.getElem_set_ne d.isLt hn hne.symm

namespace Writes

variable {s t : State} {i : Instr}

theorem buf_eq (h : Writes s i t) : t.buf = s.buf := by cases h <;> rfl

theorem getElem_regs (h : Writes s i t) {n : Nat} (hn : n < 32) (hne : ∀ rd, destByte i = some rd → n ≠ rd.toNat) :
    t.regs[n] = s.regs[n] := by
  cases h with
  | load h => exact getElem_setX_ne s _ _ hn (hne _ rfl)
  | arith _ hd h v => exact getElem_setX_ne s _ _ hn (hne _ hd)
  | div h q r => exact getElem_setX_ne s _ _ hn (hne _ rfl)
  | _ => rfl

theorem eqFlag_eq (h : Writes s i t) (hi : i.op ∉ [.eq, .neq, .gte, .lte, .lt, .gt]) : t.eqFlag = s.eqFlag := by
  cases h with
  | compare hc => exact absurd hc hi
  | _ => rfl

/-- An instruction that raises no fault keeps the engine as it is and silent, or is one of the two that halt it. -/
theorem run_cases (h : Writes s i t) :
    (i.op ∉ [.halt, .illegal] ∧ t.run = s.run ∧ t.notices = s.notices) ∨
    (i.op = .halt ∧ t = ((s.emit .haltNotice).setPc (s.next 1)).haltWith .haltOp) ∨
    (i.op = .illegal ∧ t = ((s.emit .illegalNotice).setPc (s.next 1)).haltWith .illegalOp) := by
  cases h with
  | load | div => exact .inl ⟨by simp [Instr.op], rfl, rfl⟩
  | arith hi | compare hi | jump hi =>
    refine .inl ⟨fun hmem => ?_, rfl, rfl⟩
    revert hi hmem
    cases i.op <;> decide
  | halt => exact .inr (.inl ⟨rfl, rfl⟩)
  | illegal => exact .inr (.inr ⟨rfl, rfl⟩)

/-- A target never leaves the buffer when the instruction itself does not (R13). -/
theorem pc_le_len (h : Writes s i t) (hnext : s.next i.ilen ≤ s.len) : t.pc.toNat ≤ s.len := by
  have hset : ∀ {n}, n ≤ s.len → (s.setPc n).pc.toNat ≤ s.len := fun hn => (setPc_pc_toNat hn).trans_le hn
  cases h with
  | load | div => exact hset hnext
  | arith hi | compare hi =>
    have hlen : i.ilen = 4 := by
      rw [Instr.ilen]
      revert hi
      cases i.op <;> decide
    exact hset (hlen ▸ hnext)
  | jump hi hn =>
    have hlen : i.ilen = 2 := by
      rw [Instr.ilen]
      revert hi
      cases i.op <;> decide
    exact hset (hn.elim id fun hle => hle.trans (hlen ▸ hnext))
  | halt | illegal => exact hset hnext

end Writes

theorem destByte_eq_none {i : Instr} (hi : i.op ∉ [.load, .add, .sub, .mul, .div]) : destByte i = none := by
  cases i with
  | load | add | sub | mul | div => simp [Instr.op] at hi
  | _ => rfl

section
variable {m : ArithOverflow} {i : Instr} {s t : State} (ht : execAt m i s = .next t)
include ht

theorem execAt_buf : t.buf = s.buf := by
  rcases execAt_next ht with ⟨f, -, rfl⟩ | hw
  · rfl
  · exact hw.buf_eq

theorem execAt_getElem_regs {n : Nat} (hn : n < 32) (hne : ∀ rd, destByte i = some rd → n ≠ rd.toNat) :
    t.regs[n] = s.regs[n] := by
  rcases execAt_next ht with ⟨f, -, rfl⟩ | hw
  · rfl
  · exact hw.getElem_regs hn hne

theorem execAt_regs (hi : i.op ∉ [.load, .add, .sub, .mul, .div]) : t.regs = s.regs :=
  Vector.ext fun _ hn => execAt_getElem_regs ht hn (by simp [destByte_eq_none hi])

theorem execAt_eqFlag (hi : i.op ∉ [.eq, .neq, .gte, .lte, .lt, .gt]) : t.eqFlag = s.eqFlag := by
  rcases execAt_next ht with ⟨f, -, rfl⟩ | hw
  · rfl
  · exact hw.eqFlag_eq hi

theorem execAt_notices_run (hi : i.op ∉ [.halt, .illegal]) :
    t.notices = s.notices ∧ (t.run = s.run ∨ ∃ f, t.run = .halted (.fault f)) := by
  rcases execAt_next ht with ⟨f, -, rfl⟩ | hw
  · exact ⟨rfl, .inr ⟨f, rfl⟩⟩
  · rcases hw.run_cases with ⟨-, hrun, hnotices⟩ | ⟨hop, -⟩ | ⟨hop, -⟩
    · exact ⟨hnotices, .inl hrun⟩
    · simp [hop] at hi
    · simp [hop] at hi

end

/-- Settles O34: `exec` is `execAt` at the default, and each field is framed by what the execute stage can answer. -/
theorem instructionFrame : Obligations.InstructionFrame := by
  unfold Obligations.InstructionFrame
  intro i s t h
  obtain ⟨m, ht⟩ : ∃ m, execAt m i s = .next t := h.elim (fun h => ⟨_, exec_eq_execAt i s ▸ h⟩) id
  have hbuf : t.buf = s.buf := execAt_buf ht
  refine ⟨fun a => by rw [hbuf], by rw [hbuf], execAt_regs ht, fun rd imm hi n hn hne => ?load,
    fun rs1 rs2 rd hi n hn hne => ?arithmetic, execAt_eqFlag ht, fun hi => execAt_rem_of_ne_div m hi ht,
    execAt_notices_run ht⟩
  case load =>
    subst hi
    exact execAt_getElem_regs ht hn (by simpa [destByte] using hne)
  case arithmetic =>
    have hdest : destByte i = some rd := by
      simp only [List.mem_cons, List.not_mem_nil, or_false] at hi
      rcases hi with rfl | rfl | rfl | rfl <;> rfl
    exact execAt_getElem_regs ht hn (by simpa [hdest] using hne)

end Sys2Proof.Machine
end

section
/-! PROOFS. Every answer of a step, from what stands at `pc`; and what follows for the whole engine: totality, the
invariant and the reachable states, the causes of a halt and the notices (spec/50_engine.md R90 to R98, R106). -/

namespace Sys2Proof.Machine

/-! ### A step as `exec` of the decoded instruction -/

/-- The bytes at `pc` decode to one whole instruction: the step is its execute stage. -/
theorem stepWith_of_decodeAt {t : OpTable} {ex : Instr → State → Outcome} {s : State} {bs : List Byte} {i : Instr}
    (ht : t.valid) (hrun : s.run = .running) (hbytes : s.bytesAt s.pc.toNat bs)
    (hdecode : decodeAt t bs = .ok (i, [])) :
    stepWith t ex s = ex i s := by
  cases bs with
  | nil => cases hdecode
  | cons b0 bs =>
    obtain ⟨-, -, -, hlen⟩ := encodeInvertsDecode t b0 bs i [] ht hdecode
    exact stepWith_of_bytes hrun (by simpa using hlen.symm) hbytes hdecode

theorem opTable_valid : opTable.valid := List.Perm.refl _

/-- Settles O8. -/
theorem stepRunsTheDecodedInstruction : Obligations.StepRunsTheDecodedInstruction := by
  unfold Obligations.StepRunsTheDecodedInstruction
  exact fun _ _ _ hrun hbytes hdecode => stepWith_of_decodeAt opTable_valid hrun hbytes hdecode

/-- Settles O17: both steps are the execute stage of the one instruction, which sees of the buffer only its LEN. -/
theorem stepDoesNotDependOnTheNumbering : Obligations.StepDoesNotDependOnTheNumbering := by
  unfold Obligations.StepDoesNotDependOnTheNumbering
  intro p t2 s u m2 i ht ht2 hi hbytes hlen hbytes2 hu
  change stepWith t2 (execAt p.overflow) (s.withBuf m2) = .next (u.withBuf m2)
  cases hrun : s.run with
  | halted c =>
    cases (stepWith_of_halted hrun).symm.trans hu
    exact stepWith_of_halted (s := s.withBuf m2) hrun
  | running =>
    have hexec : execAt p.overflow i s = .next u :=
      (stepWith_of_decodeAt ht hrun hbytes (decodeAt_encodeAt_self ht hi)).symm.trans hu
    rw [stepWith_of_decodeAt (s := s.withBuf m2) ht2 hrun hbytes2 (decodeAt_encodeAt_self ht2 hi)]
    exact ((execAt_sameUpToBuffer hlen p.overflow i).of_next hexec).2

/-! ### Totality, and the result of a step -/

theorem stepAt_total (p : Params) (s : State) : ∃ t, stepAt p s = .next t := by
  obtain ⟨t, -, ht, -⟩ := stepAt_sameUpToBuffer p rfl (agreesOnInstruction_self p.opTable s)
  exact ⟨t, ht⟩

theorem stepAt_buf {p : Params} {s t : State} (ht : stepAt p s = .next t) : t.buf = s.buf :=
  ((stepAt_sameUpToBuffer p rfl (agreesOnInstruction_self p.opTable s)).of_next ht).1

theorem stepResultAt_of_next {p : Params} {s t : State} (ht : stepAt p s = .next t) :
    stepResultAt p s = .next (t, resultOf t.run) := resultIn_next ht

theorem stepResult_eq_stepResultAt (s : State) : stepResult s = stepResultAt defaultParams s := by
  rw [stepResult, step_eq_stepAt_fun, stepResultAt]

theorem runFor_eq_runForAt (k : Nat) (s : State) : runFor k s = runForAt defaultParams k s := by
  rw [runFor, step_eq_stepAt_fun, runForAt]

theorem stepAt_stepResultAt_total (p : Params) (s : State) :
    ∃ t, stepAt p s = .next t ∧ stepResultAt p s = .next (t, resultOf t.run) :=
  (stepAt_total p s).imp fun _ ht => ⟨ht, stepResultAt_of_next ht⟩

/-- Settles O12: under every parameter, and so at the defaults. -/
theorem everyStepAnswersANextState : Obligations.EveryStepAnswersANextState := by
  unfold Obligations.EveryStepAnswersANextState
  refine ⟨stepAt_stepResultAt_total, fun s => ?_, resultOf_running, resultOf_haltOp, resultOf_illegalOp,
    resultOf_endOfBuffer, resultOf_fault⟩
  rw [step_eq_stepAt, stepResult_eq_stepResultAt]
  exact stepAt_stepResultAt_total defaultParams s

/-! ### The end of the buffer and the truncated instruction -/

/-- Settles O9: the step under every parameter, with the result of the state it leaves. -/
theorem stepHaltsAtTheEndOfTheBuffer : Obligations.StepHaltsAtTheEndOfTheBuffer := by
  unfold Obligations.StepHaltsAtTheEndOfTheBuffer
  intro p s hrun hend
  have hstep : ∀ p, stepAt p s = .next (s.haltWith .endOfBuffer) := fun p => stepWith_of_endOfBuffer hrun hend
  exact ⟨hstep p, stepResultAt_of_next (hstep p),
    (stepResult_eq_stepResultAt s).trans (stepResultAt_of_next (hstep defaultParams))⟩

/-- Settles O10. -/
theorem stepFaultsOnATruncatedInstruction : Obligations.StepFaultsOnATruncatedInstruction := by
  unfold Obligations.StepFaultsOnATruncatedInstruction
  exact fun _ _ _ hrun hb0 hcut => stepWith_of_truncated hrun hb0 hcut

/-! ### A halted engine -/

/-- Steps from a state that answers itself lead nowhere else. -/
theorem stepsIn_iff_of_fixed {f : State → Outcome} {s : State} (h : f s = .next s) (k : Nat) (t : State) :
    StepsIn f k s t ↔ t = s := by
  induction k with
  | zero => exact eq_comm
  | succ k ih =>
    rw [StepsIn, ← ih]
    constructor
    · rintro ⟨u, hu, hsteps⟩
      cases h.symm.trans hu
      exact hsteps
    · exact fun hsteps => ⟨s, h, hsteps⟩

section
variable {p : Params} {s : State} {c : HaltCause}

theorem stepAt_of_halted (hrun : s.run = .halted c) : stepAt p s = .next s := stepWith_of_halted hrun

theorem step_of_halted (hrun : s.run = .halted c) : step s = .next s := stepWith_of_halted hrun

theorem stepResultAt_of_halted (hrun : s.run = .halted c) :
    stepResultAt p s = .next (s, resultOf (.halted c)) :=
  hrun ▸ stepResultAt_of_next (stepAt_of_halted hrun)

theorem resultOf_halted_ne_continue (c : HaltCause) : resultOf (.halted c) ≠ .continue :=
  fun h => by simpa using (resultOf_eq_continue _).1 h

theorem runForAt_of_halted (hrun : s.run = .halted c) (k : Nat) :
    runForAt p (k + 1) s = .next (s, resultOf (.halted c)) :=
  runIn_succ_stop k (stepResultAt_of_halted hrun) (resultOf_halted_ne_continue c)

end

/-- Settles O11: the step is the identity, so its result and every run end at once. -/
theorem haltedEngineStepsToItself : Obligations.HaltedEngineStepsToItself := by
  unfold Obligations.HaltedEngineStepsToItself
  intro p s c hrun
  exact ⟨stepAt_of_halted hrun, stepResultAt_of_halted hrun,
    (stepResult_eq_stepResultAt s).trans (stepResultAt_of_halted hrun),
    fun k t => ⟨stepsIn_iff_of_fixed (stepAt_of_halted hrun) k t, stepsIn_iff_of_fixed (step_of_halted hrun) k t⟩,
    fun k => ⟨runForAt_of_halted hrun k, (runFor_eq_runForAt _ s).trans (runForAt_of_halted hrun k)⟩⟩

/-! ### Every answer of a step of a running engine -/

/-- A running engine is at the end of its buffer, or finds an instruction cut short, or executes a whole one. -/
theorem stepAt_next {p : Params} {s t : State} (hrun : s.run = .running) (ht : stepAt p s = .next t) :
    (s.len ≤ s.pc.toNat ∧ t = s.haltWith .endOfBuffer) ∨
    (∃ b0, s.buf.byteAt s.pc.toNat = some b0 ∧ s.len < s.next (opMap p.opTable b0).ilen ∧
      t = s.raiseFault (.pcOutOfRange (s.next (opMap p.opTable b0).ilen))) ∨
    ∃ b0 bs i, s.bytesAt s.pc.toNat (b0 :: bs) ∧ s.next i.ilen ≤ s.len ∧
      decodeAt p.opTable (b0 :: bs) = .ok (i, []) ∧ i.op = opMap p.opTable b0 ∧ execAt p.overflow i s = .next t := by
  rcases stepWith_cases p.opTable (execAt p.overflow) s with
    ⟨⟨c, hc⟩, -⟩ | ⟨-, hend, e⟩ | ⟨b0, -, hb0, hcut, e⟩ | ⟨b0, bs, i, -, -, hnext, -, hbytes, hdecode, hop, e⟩
  · simp [hrun] at hc
  · cases e.symm.trans ht
    exact .inl ⟨hend, rfl⟩
  · cases e.symm.trans ht
    exact .inr (.inl ⟨b0, hb0, hcut, rfl⟩)
  · refine .inr (.inr ⟨b0, bs, i, hbytes, ?_, hdecode, hop, e.symm.trans ht⟩)
    rwa [Instr.ilen, hop]

/-- The first of the bytes at `pc` is the opcode byte. -/
theorem opcode_of_bytesAt {s : State} {b0 : Byte} {bs : List Byte} (h : s.bytesAt s.pc.toNat (b0 :: bs)) :
    s.buf.byteAt s.pc.toNat = some b0 := h 0 (Nat.succ_pos _)

/-! ### The invariant -/

theorem stepAt_keeps_wf {p : Params} {s t : State} (hs : s.wf) (ht : stepAt p s = .next t) : t.wf := by
  obtain ⟨hbuf, hpc⟩ := hs
  have hbuf' : t.buf = s.buf := stepAt_buf ht
  refine ⟨hbuf' ▸ hbuf, ?_⟩
  have hlen : t.len = s.len := congrArg (fun m : Memory => m.len.toNat) hbuf'
  rw [hlen]
  cases hrun : s.run with
  | halted c =>
    cases (stepAt_of_halted hrun).symm.trans ht
    exact hpc
  | running =>
    rcases stepAt_next hrun ht with ⟨-, rfl⟩ | ⟨b0, -, -, rfl⟩ | ⟨b0, bs, i, -, hnext, -, -, hexec⟩
    · exact hpc
    · exact hpc
    · rcases execAt_next hexec with ⟨f, -, rfl⟩ | hw
      · exact hpc
      · exact hw.pc_le_len hnext

/-- Settles O13: a step keeps the buffer it was given, and every `pc` it writes is at most LEN. -/
theorem stepKeepsWellFormedStates : Obligations.StepKeepsWellFormedStates := by
  unfold Obligations.StepKeepsWellFormedStates
  intro p s t hs ht
  exact ht.elim (fun h => stepAt_keeps_wf hs (step_eq_stepAt s ▸ h)) (stepAt_keeps_wf hs)

theorem resetWith_wf (remReset : Word) (eqReset : Bool) : (State.resetWith remReset eqReset).wf :=
  ⟨empty_wf, Nat.zero_le _⟩

theorem hostResetWith_wf (remReset : Word) (eqReset : Bool) (s : State) : (hostResetWith remReset eqReset s).wf :=
  resetWith_wf remReset eqReset

theorem loadProgram_eq_some {bytes : List Byte} {s t : State} (h : loadProgram bytes s = some t) :
    bytes.length < 2 ^ 32 ∧ t = { s with buf := Memory.ofBytes bytes, pc := 0#32, run := .running } := by
  unfold loadProgram at h
  split at h
  · next hlt => exact ⟨hlt, by simpa using h.symm⟩
  · cases h

theorem loadProgram_wf {bytes : List Byte} {s t : State} (h : loadProgram bytes s = some t) : t.wf := by
  refine ⟨loadProgram_buf_wf h, ?_⟩
  obtain ⟨-, rfl⟩ := loadProgram_eq_some h
  exact Nat.zero_le _

/-- Settles O14. -/
theorem resetAndLoadAreWellFormed : Obligations.ResetAndLoadAreWellFormed := by
  unfold Obligations.ResetAndLoadAreWellFormed
  exact ⟨resetWith_wf _ _, fun _ => resetWith_wf _ _, hostResetWith_wf _ _, fun _ => hostResetWith_wf _ _,
    fun _ _ _ => loadProgram_wf⟩

/-- An invariant of power-on that resets, loads and steps keep holds of every reachable state. -/
theorem reachableIn_invariant {f : State → Outcome} {reset : State → State} {s0 : State} {P : State → Prop}
    (h0 : P s0) (hreset : ∀ s, P (reset s)) (hload : ∀ bytes s t, loadProgram bytes s = some t → P t)
    (hstep : ∀ s t, P s → f s = .next t → P t) {s : State} (h : ReachableIn f reset s0 s) : P s := by
  induction h with
  | powerOn => exact h0
  | reset s _ _ => exact hreset s
  | loadProgram s t bytes _ ht _ => exact hload bytes s t ht
  | step s t _ ht ih => exact hstep s t ih ht

theorem reachableAt_wf {p : Params} {s : State} (h : ReachableAt p s) : s.wf :=
  reachableIn_invariant (resetWith_wf _ _) (hostResetWith_wf _ _) (fun _ _ _ => loadProgram_wf)
    (fun _ _ => stepAt_keeps_wf) h

/-- Settles O15: the invariant of O13 from the base cases of O14. -/
theorem reachableStatesAreWellFormed : Obligations.ReachableStatesAreWellFormed := by
  unfold Obligations.ReachableStatesAreWellFormed
  refine ⟨fun s h => ?_, fun _ _ => reachableAt_wf⟩
  rw [Reachable, step_eq_stepAt_fun] at h
  exact reachableAt_wf (p := defaultParams) h

end Sys2Proof.Machine
end

section
/-! PROOFS. What stopped the engine: the halt causes and the notices, each fault with the exact condition that raises
it, and the two values of ARITH_OVERFLOW against each other (spec/10_state.md R16, spec/45_termination.md R86 to R88,
spec/60_exceptions.md R107 to R117). -/

namespace Sys2Proof.Machine

/-! ### The run state a step leaves -/

theorem Raises.op_notMem {m : ArithOverflow} {s : State} {i : Instr} {f : EngineFault} (h : Raises m s i f) :
    i.op ∉ [.halt, .illegal] := by
  cases h with
  | badIndex hbad =>
    cases i with
    | halt | illegal => cases hbad
    | _ => simp [Instr.op]
  | overflow hi =>
    revert hi
    cases i.op <;> decide
  | _ => simp [Instr.op]

/-- Halt and Illegal are one byte long, so LEN cuts none of them short. -/
theorem opcode_notMem_of_truncated {t : OpTable} {s : State} {b0 : Byte} (hb0 : s.buf.byteAt s.pc.toNat = some b0)
    (hcut : s.len < s.next (opMap t b0).ilen) : opMap t b0 ∉ [.halt, .illegal] := by
  have hin : s.pc.toNat < s.len := (byteAt_isSome_iff s.buf _).1 (by rw [hb0]; rfl)
  intro hmem
  have hlen : (opMap t b0).ilen = 1 := by
    revert hmem
    cases opMap t b0 <;> decide
  rw [hlen, State.next] at hcut
  omega

/-- Every way a step of a running engine can end, by the opcode byte at `pc`: at the end of the buffer there is none;
Halt and Illegal halt with their notices; any other operation faults or leaves the engine Running and silent. -/
theorem stepAt_run_cases {p : Params} {s t : State} (hrun : s.run = .running) (ht : stepAt p s = .next t) :
    (s.len ≤ s.pc.toNat ∧ t = s.haltWith .endOfBuffer) ∨
    ∃ b0, s.buf.byteAt s.pc.toNat = some b0 ∧
      ((opMap p.opTable b0 = .halt ∧ t = ((s.emit .haltNotice).setPc (s.next 1)).haltWith .haltOp) ∨
       (opMap p.opTable b0 = .illegal ∧ t = ((s.emit .illegalNotice).setPc (s.next 1)).haltWith .illegalOp) ∨
       (opMap p.opTable b0 ∉ [.halt, .illegal] ∧
         ((∃ f, t = s.raiseFault f) ∨ (t.run = .running ∧ t.notices = s.notices)))) := by
  rcases stepAt_next hrun ht with hend | ⟨b0, hb0, hcut, rfl⟩ | ⟨b0, bs, i, hbytes, -, -, hop, hexec⟩
  · exact .inl hend
  · exact .inr ⟨b0, hb0, .inr (.inr ⟨opcode_notMem_of_truncated hb0 hcut, .inl ⟨_, rfl⟩⟩)⟩
  · refine .inr ⟨b0, opcode_of_bytesAt hbytes, ?_⟩
    rw [← hop]
    rcases execAt_next hexec with ⟨f, hf, rfl⟩ | hw
    · exact .inr (.inr ⟨hf.op_notMem, .inl ⟨f, rfl⟩⟩)
    · rcases hw.run_cases with ⟨hi, hrun', hnotices⟩ | hhalt | hillegal
      · exact .inr (.inr ⟨hi, .inr ⟨hrun'.trans hrun, hnotices⟩⟩)
      · exact .inl hhalt
      · exact .inr (.inl hillegal)

/-! ### Faults, from the state they leave -/

/-- Where a fault comes from: LEN cuts the instruction at `pc` short, or its execute stage raises it. -/
def FaultsAt (p : Params) (s : State) (f : EngineFault) : Prop :=
  (∃ b0, s.buf.byteAt s.pc.toNat = some b0 ∧ s.len < s.next (opMap p.opTable b0).ilen ∧
    f = .pcOutOfRange (s.next (opMap p.opTable b0).ilen)) ∨
  ∃ b0 i, s.bytesAt s.pc.toNat (b0 :: (encodeAt p.opTable i).tail) ∧ opMap p.opTable b0 = i.op ∧ Raises p.overflow s i f

theorem operands_of_decodeAt {t : OpTable} {b0 : Byte} {bs : List Byte} {i : Instr}
    (h : decodeAt t (b0 :: bs) = .ok (i, [])) : bs = (encodeAt t i).tail := by
  simpa using (decodeOperands_eq_some (decodeAt_cons_eq_ok_iff.1 h) t).2

theorem stepAt_fault {p : Params} {s t : State} {f : EngineFault} (hrun : s.run = .running)
    (ht : stepAt p s = .next t) (hf : t.run = .halted (.fault f)) : t = s.raiseFault f ∧ FaultsAt p s f := by
  rcases stepAt_next hrun ht with ⟨-, rfl⟩ | ⟨b0, hb0, hcut, rfl⟩ | ⟨b0, bs, i, hbytes, -, hdecode, hop, hexec⟩
  · cases hf
  · cases hf
    exact ⟨rfl, .inl ⟨b0, hb0, hcut, rfl⟩⟩
  · obtain rfl := operands_of_decodeAt hdecode
    rcases execAt_next hexec with ⟨g, hg, rfl⟩ | hw
    · cases hf
      exact ⟨rfl, .inr ⟨b0, i, hbytes, hop.symm, hg⟩⟩
    · rcases hw.run_cases with ⟨-, hrun', -⟩ | ⟨-, rfl⟩ | ⟨-, rfl⟩
      · rw [hrun', hrun] at hf
        cases hf
      · cases hf
      · cases hf

theorem results_of_stepAt_fault {p : Params} {s t : State} {f : EngineFault} (ht : stepAt p s = .next t)
    (hf : t.run = .halted (.fault f)) :
    stepResultAt p s = .next (t, .faulted f) ∧ ∀ k, runForAt p (k + 1) s = .next (t, .faulted f) := by
  have hresult : stepResultAt p s = .next (t, .faulted f) := by
    rw [stepResultAt_of_next ht, hf, resultOf_fault]
  exact ⟨hresult, fun k => runIn_succ_stop k hresult (by simp)⟩

/-- Settles O43: a fault's state is `raiseFault`, its result the fault, and the run ends with it. -/
theorem faultChangesOnlyTheRunState : Obligations.FaultChangesOnlyTheRunState := by
  unfold Obligations.FaultChangesOnlyTheRunState
  refine ⟨fun p s t f hrun ht hf => ⟨(stepAt_fault hrun ht hf).1, results_of_stepAt_fault ht hf⟩,
    fun s t f hrun ht hf => ?_⟩
  rw [step_eq_stepAt] at ht
  simp only [stepResult_eq_stepResultAt, runFor_eq_runForAt]
  exact ⟨(stepAt_fault hrun ht hf).1, results_of_stepAt_fault ht hf⟩

/-- Settles O44: a halted engine steps to itself, and the two host writes set Running. -/
theorem faultedEngineStaysUntilLoadOrReset : Obligations.FaultedEngineStaysUntilLoadOrReset := by
  unfold Obligations.FaultedEngineStaysUntilLoadOrReset
  intro p s f hrun
  obtain ⟨-, hresultAt, hresult, hsteps, hruns⟩ := haltedEngineStepsToItself p s _ hrun
  refine ⟨hsteps, hresultAt, hresult, hruns, fun bytes t hload => ?_, rfl, rfl⟩
  obtain ⟨-, rfl⟩ := loadProgram_eq_some hload
  exact ⟨rfl, rfl, rfl, rfl⟩

theorem bytesAt_pair {s : State} {a : Nat} {b c : Byte} :
    s.bytesAt a [b, c] ↔ s.buf.byteAt a = some b ∧ s.buf.byteAt (a + 1) = some c := by
  constructor
  · exact fun h => ⟨h 0 (by simp), h 1 (by simp)⟩
  · rintro ⟨hb, hc⟩ (_ | _ | k) hk
    · exact hb
    · exact hc
    · simp at hk

section
variable {p : Params} {s : State} {b0 rt : Byte}

theorem stepAt_jmpf (hrun : s.run = .running) (hop : opMap p.opTable b0 = .jmpf)
    (hbytes : s.bytesAt s.pc.toNat [b0, rt]) : stepAt p s = execJmpf rt s :=
  stepAt_of_operands hrun hop hbytes rfl rfl

theorem stepAt_jmpe (hrun : s.run = .running) (hop : opMap p.opTable b0 = .jmpe)
    (hbytes : s.bytesAt s.pc.toNat [b0, rt]) : stepAt p s = execJmpe rt s :=
  stepAt_of_operands hrun hop hbytes rfl rfl

end

/-- A step known to raise a fault leaves that fault's run state. -/
theorem run_of_stepAt_raiseFault {p : Params} {s t : State} {f : EngineFault} (ht : stepAt p s = .next t)
    (h : stepAt p s = .next (s.raiseFault f)) : t.run = .halted (.fault f) := by
  cases ht.symm.trans h
  rfl

/-- Settles O45: from the fault, where it comes from; to it, the step of each of the four instructions that raise it. -/
theorem pcOutOfRangeExactlyWhen : Obligations.PcOutOfRangeExactlyWhen := by
  unfold Obligations.PcOutOfRangeExactlyWhen
  intro p s t x hrun ht
  constructor
  case mp =>
    intro hf
    rcases (stepAt_fault hrun ht hf).2 with ⟨b0, hb0, hcut, hx⟩ | ⟨b0, i, hbytes, hop, hraises⟩
    · cases hx
      exact ⟨b0, hb0, .inl ⟨hcut, rfl⟩⟩
    · refine ⟨b0, opcode_of_bytesAt hbytes, .inr ?_⟩
      cases hraises with
      | jmp h hgt => exact ⟨_, h, (bytesAt_pair.1 hbytes).2, hgt, .inl ⟨hop, by rw [x_eq_getElem]⟩⟩
      | jmpe h heq hgt => exact ⟨_, h, (bytesAt_pair.1 hbytes).2, hgt, .inr (.inl ⟨hop, heq, by rw [x_eq_getElem]⟩)⟩
      | jmpf h hgt hfits =>
        exact ⟨_, h, (bytesAt_pair.1 hbytes).2, hgt, .inr (.inr ⟨hop, by rw [x_eq_getElem]; rfl, hfits⟩)⟩
  case mpr =>
    rintro ⟨b0, hb0, ⟨hcut, rfl⟩ | ⟨rt, h, hrt, hgt, hcase⟩⟩
    · exact run_of_stepAt_raiseFault ht (stepWith_of_truncated hrun hb0 hcut)
    · have hbytes : s.bytesAt s.pc.toNat [b0, rt] := bytesAt_pair.2 ⟨hb0, hrt⟩
      rw [← x_eq_getElem s rt.toNat h] at hcase
      rcases hcase with ⟨hop, rfl⟩ | ⟨hop, heq, rfl⟩ | ⟨hop, rfl, hfits⟩
      · exact run_of_stepAt_raiseFault ht ((stepAt_jmp hrun hop hbytes).trans (execJmp_of_gt h hgt))
      · exact run_of_stepAt_raiseFault ht ((stepAt_jmpe hrun hop hbytes).trans (execJmpe_of_gt h heq hgt))
      · exact run_of_stepAt_raiseFault ht ((stepAt_jmpf hrun hop hbytes).trans (execJmpf_of_gt h hgt hfits))

/-- Settles O46: from the fault, the two jumps that raise it; to it, the step of each. -/
theorem jumpOffsetFaultExactlyWhen : Obligations.JumpOffsetFaultExactlyWhen := by
  unfold Obligations.JumpOffsetFaultExactlyWhen
  intro p s t w hrun ht
  constructor
  case mp =>
    intro hf
    rcases (stepAt_fault hrun ht hf).2 with ⟨b0, -, -, hx⟩ | ⟨b0, i, hbytes, hop, hraises⟩
    · cases hx
    · cases hraises with
      | jmpfOverflow h hover =>
        exact ⟨b0, _, h, hbytes, .inr ⟨hop, rfl, by rwa [x_eq_getElem] at hover⟩⟩
      | jmpbUnderflow h hunder =>
        exact ⟨b0, _, h, hbytes, .inl ⟨hop, rfl, by rwa [x_eq_getElem] at hunder⟩⟩
  case mpr =>
    rintro ⟨b0, rt, h, hbytes, hcase⟩
    rw [← x_eq_getElem s rt.toNat h] at hcase
    rcases hcase with ⟨hop, rfl, hunder⟩ | ⟨hop, rfl, hover⟩
    · exact run_of_stepAt_raiseFault ht ((stepAt_jmpb hrun hop hbytes).trans (execJmpb_of_gt h hunder))
    · exact run_of_stepAt_raiseFault ht ((stepAt_jmpf hrun hop hbytes).trans (execJmpf_of_overflow h hover))

/-! ### Halt causes and notices -/

theorem noFault_eq_false_iff (t : State) : t.noFault = false ↔ ∃ f, t.run = .halted (.fault f) := by
  unfold State.noFault
  rcases t.run with _ | (_ | _ | _ | f) <;> simp

theorem stepAt_wrap_ne_arithmeticOverflow {p : Params} {s t : State} (hrun : s.run = .running)
    (ht : stepAt p s = .next t) (hm : p.overflow = .wrap) : t.run ≠ .halted (.fault .arithmeticOverflow) := by
  intro hf
  rcases (stepAt_fault hrun ht hf).2 with ⟨b0, -, -, hx⟩ | ⟨b0, i, -, -, hraises⟩
  · cases hx
  · cases hraises with
    | overflow hi hfault => simp [hm] at hfault

/-- Settles O47: each way a step can end has its own cause, and its own opcode byte. -/
theorem haltCauseSaysWhatStoppedTheEngine : Obligations.HaltCauseSaysWhatStoppedTheEngine := by
  unfold Obligations.HaltCauseSaysWhatStoppedTheEngine
  intro p s t hrun ht
  simp only [← and_assoc]
  refine ⟨⟨?causes, noFault_eq_false_iff t⟩, stepAt_wrap_ne_arithmeticOverflow hrun ht⟩
  rcases stepAt_run_cases hrun ht with ⟨hend, rfl⟩ | ⟨b0, hb0, hcase⟩
  case causes.inl =>
    have hnone : s.buf.byteAt s.pc.toNat = none := (byteAt_eq_none_iff _ _).2 hend
    simp [hnone, hend]
  case causes.inr =>
    have hin : ¬ s.len ≤ s.pc.toNat := Nat.not_le.2 ((byteAt_isSome_iff s.buf _).1 (by rw [hb0]; rfl))
    rcases hcase with ⟨hop, rfl⟩ | ⟨hop, rfl⟩ | ⟨hop, hother⟩
    · simp [hb0, hop, hin]
    · simp [hb0, hop, hin]
    · obtain ⟨hhalt, hillegal⟩ : opMap p.opTable b0 ≠ .halt ∧ opMap p.opTable b0 ≠ .illegal := by simpa using hop
      rcases hother with ⟨f, rfl⟩ | ⟨hrun', -⟩
      · simp [hb0, hhalt, hillegal, hin]
      · simp [hb0, hhalt, hillegal, hin, hrun']

/-- Settles O48: the same ways a step can end, each with its notices. -/
theorem noticesComeOnlyFromHaltAndIllegal : Obligations.NoticesComeOnlyFromHaltAndIllegal := by
  unfold Obligations.NoticesComeOnlyFromHaltAndIllegal
  intro p s t ht
  cases hrun : s.run with
  | halted c =>
    cases (stepAt_of_halted hrun).symm.trans ht
    simp
  | running =>
    rcases stepAt_run_cases hrun ht with ⟨-, rfl⟩ | ⟨b0, -, ⟨-, rfl⟩ | ⟨-, rfl⟩ | ⟨-, ⟨f, rfl⟩ | ⟨hrun', hnotices⟩⟩⟩
    · simp
    · simp
    · simp
    · simp
    · simp [hrun', hnotices]

/-- Settles O56: Illegal leaves `pc` one past its byte, and the step kept the buffer. -/
theorem hostFindsTheIllegalByteBehindPc : Obligations.HostFindsTheIllegalByteBehindPc := by
  unfold Obligations.HostFindsTheIllegalByteBehindPc
  intro p s t hrun ht hillegal
  obtain ⟨b0, hb0, hop, rfl⟩ : ∃ b0, s.buf.byteAt s.pc.toNat = some b0 ∧ opMap p.opTable b0 = .illegal ∧
      t = ((s.emit .illegalNotice).setPc (s.next 1)).haltWith .illegalOp := by
    rcases stepAt_run_cases hrun ht with ⟨-, rfl⟩ | ⟨b0, hb0, ⟨-, rfl⟩ | ⟨hop, rfl⟩ | ⟨-, ⟨f, rfl⟩ | ⟨hrun', -⟩⟩⟩
    · cases hillegal
    · cases hillegal
    · exact ⟨b0, hb0, hop, rfl⟩
    · cases hillegal
    · simp [hrun'] at hillegal
  have hin : s.pc.toNat < s.len := (byteAt_isSome_iff s.buf _).1 (by rw [hb0]; rfl)
  have hpc : (s.setPc (s.next 1)).pc.toNat = s.pc.toNat + 1 := setPc_pc_toNat hin
  refine ⟨b0, hb0, hop, hpc, ?_⟩
  calc s.buf.byteAt ((s.setPc (s.next 1)).pc.toNat - 1)
      = s.buf.byteAt s.pc.toNat := by rw [hpc, Nat.add_sub_cancel]
    _ = some b0 := hb0

/-! ### The two values of ARITH_OVERFLOW -/

/-- The two answers are the same, or the first is the overflow fault. -/
def AgreeOrOverflow {α : Type} (r r' : Except EngineFault α) : Prop := r = .error .arithmeticOverflow ∨ r' = r

theorem narrow_agreeOrOverflow (e : Int) : AgreeOrOverflow (narrow .fault e) (narrow .wrap e) := by
  by_cases h : fits32 e = true
  · exact .inr ((narrow_fits _ e h).trans (narrow_fits _ e h).symm)
  · exact .inl (narrow_fault_of_outOfRange (mt (fits32_iff e).2 h))

theorem aluDiv_agreeOrOverflow (a b : Word) : AgreeOrOverflow (aluDiv .fault a b) (aluDiv .wrap a b) := by
  by_cases h0 : sVal b = 0
  · exact .inr ((aluDiv_zero _ a b h0).trans (aluDiv_zero _ a b h0).symm)
  · rcases narrow_agreeOrOverflow (quotient a b) with hover | heq
    · exact .inl (aluDiv_overflow h0 hover)
    · exact .inr (by simp only [aluDiv, heq])

theorem commit_map_wrap_of_fault {α : Type} {s t : State} {r r' : Except EngineFault α} {g : α → State}
    (h : AgreeOrOverflow r r') (ht : commit s (r.map g) = .next t)
    (hne : t.run ≠ .halted (.fault .arithmeticOverflow)) : commit s (r'.map g) = .next t := by
  rcases h with rfl | rfl
  · cases ht
    exact absurd rfl hne
  · exact ht

theorem arith3_wrap_of_fault {alu : ArithOverflow → Word → Word → Except EngineFault Word}
    (halu : ∀ a b, AgreeOrOverflow (alu .fault a b) (alu .wrap a b)) {rs1 rs2 rd : Byte} {s t : State}
    (ht : arith3 (alu .fault) rs1 rs2 rd s = .next t) (hne : t.run ≠ .halted (.fault .arithmeticOverflow)) :
    arith3 (alu .wrap) rs1 rs2 rd s = .next t := by
  rcases valid_or_firstBadIndex rs1 rs2 rd with ⟨h1, h2, h⟩ | ⟨v, hbad⟩
  · rw [arith3_of_valid _ s h1 h2 h] at ht ⊢
    exact commit_map_wrap_of_fault (halu _ _) ht hne
  · rwa [arith3_of_badIndex _ s hbad] at ht ⊢

theorem execDivAt_wrap_of_fault {rs1 rs2 rd : Byte} {s t : State} (ht : execDivAt .fault rs1 rs2 rd s = .next t)
    (hne : t.run ≠ .halted (.fault .arithmeticOverflow)) : execDivAt .wrap rs1 rs2 rd s = .next t := by
  rcases valid_or_firstBadIndex rs1 rs2 rd with ⟨h1, h2, h⟩ | ⟨v, hbad⟩
  · rw [execDivAt_of_valid _ s h1 h2 h] at ht ⊢
    exact commit_map_wrap_of_fault (aluDiv_agreeOrOverflow _ _) ht hne
  · rwa [execDivAt_of_badIndex _ s hbad] at ht ⊢

/-- The parameter is read only by the four arithmetic instructions. -/
theorem execAt_wrap_of_fault {i : Instr} {s t : State} (ht : execAt .fault i s = .next t)
    (hne : t.run ≠ .halted (.fault .arithmeticOverflow)) : execAt .wrap i s = .next t := by
  cases i with
  | add => exact arith3_wrap_of_fault (alu := aluAdd) (fun _ _ => narrow_agreeOrOverflow _) ht hne
  | sub => exact arith3_wrap_of_fault (alu := aluSub) (fun _ _ => narrow_agreeOrOverflow _) ht hne
  | mul => exact arith3_wrap_of_fault (alu := aluMul) (fun _ _ => narrow_agreeOrOverflow _) ht hne
  | div => exact execDivAt_wrap_of_fault ht hne
  | _ => exact ht

/-- Settles O37: the two steps find the same at `pc`, and differ at most in the execute stage. -/
theorem withoutOverflowTheParametersAgree : Obligations.WithoutOverflowTheParametersAgree := by
  unfold Obligations.WithoutOverflowTheParametersAgree
  intro p s t ht hne
  rcases stepWith_cases p.opTable (execAt .fault) s with
    ⟨⟨c, hrun⟩, e⟩ | ⟨hrun, hend, e⟩ | ⟨b0, hrun, hb0, hcut, e⟩ |
      ⟨b0, bs, i, hrun, -, -, hlen, hbytes, hdecode, -, e⟩
  · exact (stepWith_of_halted hrun).trans (e.symm.trans ht)
  · exact (stepWith_of_endOfBuffer hrun hend).trans (e.symm.trans ht)
  · exact (stepWith_of_truncated hrun hb0 hcut).trans (e.symm.trans ht)
  · exact (stepWith_of_bytes hrun hlen hbytes hdecode).trans (execAt_wrap_of_fault (e.symm.trans ht) (hne hrun))

end Sys2Proof.Machine
end

section
/-! PROOFS. The rules of single instructions: each completes with its result and its frame; then Div, Jmpf, Jmpe, Halt
and Illegal as steps from their bytes (spec/40_load.md to spec/45_termination.md). -/

namespace Sys2Proof.Machine

/-! ### Load, Add, Sub and Mul complete -/

theorem toInt_zext16 (imm : Half) : (imm.setWidth 32 : Word).toInt = imm.toNat := by
  have himm : imm.toNat < 2 ^ 16 := imm.isLt
  have hnat : (imm.setWidth 32 : Word).toNat = imm.toNat := by
    rw [BitVec.toNat_setWidth, Nat.mod_eq_of_lt (by omega)]
  rw [BitVec.toInt_eq_toNat_of_lt (by omega), hnat]

/-- Settles O27. -/
theorem loadCompletes : Obligations.LoadCompletes := by
  unfold Obligations.LoadCompletes
  refine fun s rd imm h => ⟨?result, toInt_zext16 imm⟩
  calc exec (.load rd imm) s = .next ((s.setX ⟨rd.toNat, h⟩ (zext16 imm)).setPc (s.next 4)) := execLoad_of_valid imm s h
    _ = _ := by rw [setPc_next]; rfl

/-- Wrapped or not, the low 32 bits of the exact result are what is written. -/
theorem arith3_exact_wrap (f : Int → Int → Int) {rs1 rs2 rd : Byte} (s : State) (h1 : rs1.toNat < 32)
    (h2 : rs2.toNat < 32) (h : rd.toNat < 32) :
    arith3 (aluExact f .wrap) rs1 rs2 rd s = .next { s with
      regs := s.regs.set rd.toNat (BitVec.ofInt 32 (f s.regs[rs1.toNat].toInt s.regs[rs2.toNat].toInt)) h,
      pc := s.pc + 4#32 } := by
  rw [arith3_of_ok h1 h2 h (narrow_wrap _), setPc_next, x_eq_getElem, x_eq_getElem]
  rfl

/-- Settles O28: the three are `arith3` on their exact operations, under the default of ARITH_OVERFLOW. -/
theorem addSubMulComplete : Obligations.AddSubMulComplete := by
  unfold Obligations.AddSubMulComplete
  exact fun s rs1 rs2 rd h1 h2 h => ⟨arith3_exact_wrap (fun a b => a + b) s h1 h2 h,
    arith3_exact_wrap (fun a b => a - b) s h1 h2 h, arith3_exact_wrap (fun a b => a * b) s h1 h2 h⟩

/-! ### The quotient and the remainder -/

theorem sVal_bounds (v : Word) : -2 ^ 31 ≤ sVal v ∧ sVal v ≤ 2 ^ 31 - 1 := ⟨BitVec.le_toInt v, BitVec.toInt_le⟩

theorem sVal_eq_zero_iff (v : Word) : sVal v = 0 ↔ v = 0#32 := BitVec.toInt_inj (y := 0#32)

theorem remainder_eq_tmod (a b : Word) : remainder a b = (sVal a).tmod (sVal b) := by
  rw [remainder, quotient, Int.tmod_def, Int.mul_comm]

theorem quotient_mul_add_remainder (a b : Word) : quotient a b * sVal b + remainder a b = sVal a := by
  rw [remainder]; omega

theorem abs_remainder_lt {a b : Word} (h0 : sVal b ≠ 0) : |remainder a b| < |sVal b| := by
  rw [remainder_eq_tmod, Int.abs_eq_natAbs, Int.abs_eq_natAbs, Int.natAbs_tmod]
  exact Int.ofNat_lt.2 (Nat.mod_lt _ (Int.natAbs_pos.2 h0))

/-- D5: the remainder is zero or has the dividend's sign. -/
theorem remainder_sign (a b : Word) : remainder a b = 0 ∨ (remainder a b).sign = (sVal a).sign := by
  rw [remainder_eq_tmod]
  by_cases hdvd : sVal b ∣ sVal a
  · exact .inl (Int.tmod_eq_zero_of_dvd hdvd)
  · exact .inr (by rw [Int.sign_tmod, if_neg hdvd])

/-- A remainder is smaller than a divisor of 32 bits, so it fits the remainder register. -/
theorem fits32_remainder {a b : Word} (h0 : sVal b ≠ 0) : fits32 (remainder a b) = true := by
  have hlt := abs_remainder_lt (a := a) h0
  obtain ⟨hlo, hhi⟩ := sVal_bounds b
  rw [fits32_iff]
  rw [Int.abs_eq_natAbs, Int.abs_eq_natAbs] at hlt
  omega

/-- The one quotient that does not fit is 2^31 (R66). -/
theorem fits32_quotient_iff (a b : Word) : fits32 (quotient a b) = true ↔ quotient a b ≠ 2 ^ 31 := by
  have habs : (quotient a b).natAbs ≤ (sVal a).natAbs := Int.natAbs_tdiv_le_natAbs _ _
  obtain ⟨hlo, hhi⟩ := sVal_bounds a
  rw [fits32_iff]
  omega

/-- The quotient 2^31 arises from -2^31 / -1 alone. -/
theorem quotient_ne_of_operands {a b : Word} (h0 : sVal b ≠ 0) (hne : ¬ (sVal a = -2 ^ 31 ∧ sVal b = -1)) :
    quotient a b ≠ 2 ^ 31 := by
  intro hq
  have hsum := quotient_mul_add_remainder a b
  have hlt := abs_remainder_lt (a := a) h0
  obtain ⟨hlo, hhi⟩ := sVal_bounds a
  rw [hq] at hsum
  rw [Int.abs_eq_natAbs, Int.abs_eq_natAbs] at hlt
  omega

/-! ### Div -/

section
variable {m : ArithOverflow} {rs1 rs2 rd : Byte} {s : State}

theorem execDivAt_of_zero (h1 : rs1.toNat < 32) (h2 : rs2.toNat < 32) (h : rd.toNat < 32)
    (h0 : sVal (s.x ⟨rs2.toNat, h2⟩) = 0) : execDivAt m rs1 rs2 rd s = .next (s.raiseFault .divideByZero) := by
  rw [execDivAt_of_valid m s h1 h2 h, aluDiv_zero m _ _ h0]; rfl

theorem execDivAt_of_narrow (h1 : rs1.toNat < 32) (h2 : rs2.toNat < 32) (h : rd.toNat < 32)
    (h0 : sVal (s.x ⟨rs2.toNat, h2⟩) ≠ 0)
    (hq : quotient (s.x ⟨rs1.toNat, h1⟩) (s.x ⟨rs2.toNat, h2⟩) ≠ 2 ^ 31 ∨ m = .wrap) :
    execDivAt m rs1 rs2 rd s =
      .next (((s.setX ⟨rd.toNat, h⟩ (to32 (quotient (s.x ⟨rs1.toNat, h1⟩) (s.x ⟨rs2.toNat, h2⟩)))).setRem
        (to32 (remainder (s.x ⟨rs1.toNat, h1⟩) (s.x ⟨rs2.toNat, h2⟩)))).setPc (s.next 4)) := by
  rcases hq with hne | rfl
  · exact execDivAt_of_fits m h1 h2 h h0 ((fits32_quotient_iff _ _).2 hne)
  · rw [execDivAt_of_valid _ s h1 h2 h, aluDiv_ok h0 (narrow_wrap _)]; rfl

theorem execDivAt_of_overflow (h1 : rs1.toNat < 32) (h2 : rs2.toNat < 32) (h : rd.toNat < 32)
    (h0 : sVal (s.x ⟨rs2.toNat, h2⟩) ≠ 0)
    (hq : quotient (s.x ⟨rs1.toNat, h1⟩) (s.x ⟨rs2.toNat, h2⟩) = 2 ^ 31) :
    execDivAt .fault rs1 rs2 rd s = .next (s.raiseFault .arithmeticOverflow) := by
  have hnarrow := narrow_fault_of_outOfRange (e := 2 ^ 31) (by decide)
  rw [execDivAt_of_valid _ s h1 h2 h, aluDiv_overflow h0 (hq ▸ hnarrow)]; rfl

end

/-- Settles O29. -/
theorem divCompletes : Obligations.DivCompletes := by
  unfold Obligations.DivCompletes
  intro s rs1 rs2 rd h1 h2 h hne
  rw [← x_eq_getElem s rs2.toNat h2] at hne
  have h0 : sVal (s.x ⟨rs2.toNat, h2⟩) ≠ 0 := mt (sVal_eq_zero_iff _).1 hne
  have hexec := execDivAt_of_narrow (m := .wrap) h1 h2 h h0 (.inr rfl)
  rw [remainder_eq_tmod, setPc_next, x_eq_getElem, x_eq_getElem] at hexec
  exact hexec

/-- Settles O38. -/
theorem zeroDivisorFaults : Obligations.ZeroDivisorFaults := by
  unfold Obligations.ZeroDivisorFaults
  intro m s rs1 rs2 rd h1 h2 h hzero
  have h0 : sVal (s.x ⟨rs2.toNat, h2⟩) = 0 := (sVal_eq_zero_iff _).2 ((x_eq_getElem s _ h2).trans hzero)
  exact ⟨execDivAt_of_zero h1 h2 h h0, execDivAt_of_zero h1 h2 h h0⟩

/-- Settles O40: the quotient is 2^31, which wraps to -2^31 with the remainder 0, or overflows. -/
theorem minimumDividedByMinusOne : Obligations.MinimumDividedByMinusOne := by
  unfold Obligations.MinimumDividedByMinusOne
  intro s rs1 rs2 rd h1 h2 h ha hb
  rw [← x_eq_getElem s _ h1] at ha
  rw [← x_eq_getElem s _ h2] at hb
  have h0 : sVal (s.x ⟨rs2.toNat, h2⟩) ≠ 0 := by rw [hb]; decide
  have hq : quotient (s.x ⟨rs1.toNat, h1⟩) (s.x ⟨rs2.toNat, h2⟩) = 2 ^ 31 := by rw [ha, hb]; decide
  have hr : remainder (s.x ⟨rs1.toNat, h1⟩) (s.x ⟨rs2.toNat, h2⟩) = 0 := by rw [ha, hb]; decide
  refine ⟨?wrap, execDivAt_of_overflow h1 h2 h h0 hq⟩
  have hexec := execDivAt_of_narrow (m := .wrap) h1 h2 h h0 (.inr rfl)
  rw [hq, hr, setPc_next] at hexec
  exact hexec

/-- Settles O39: quotient and remainder both fit, so the registers read as the integers themselves. -/
theorem quotientAndRemainderRebuildTheDividend : Obligations.QuotientAndRemainderRebuildTheDividend := by
  unfold Obligations.QuotientAndRemainderRebuildTheDividend
  intro m s rs1 rs2 rd h1 h2 h a b ha hb h0 hne
  rw [← x_eq_getElem s _ h1] at ha
  rw [← x_eq_getElem s _ h2] at hb
  subst ha hb
  have hq := quotient_ne_of_operands h0 hne
  refine ⟨_, execDivAt_of_narrow h1 h2 h h0 (.inl hq), ?_⟩
  have hquot := (setX_to32_reads s ⟨rd.toNat, h⟩ ((fits32_quotient_iff _ _).2 hq)).1
  have hrem := toInt_to32 (fits32_remainder (a := s.x ⟨rs1.toNat, h1⟩) h0)
  rw [← x_eq_getElem _ _ h, x_setPc, x_setRem, hquot, setPc_rem, setRem_rem, hrem]
  exact ⟨quotient_mul_add_remainder _ _, abs_remainder_lt h0, remainder_sign _ _⟩

/-- Settles O20: the truncated Div, then the whole one with a bad index byte, with a zero divisor, with a quotient that
is kept, and with the one that overflows where ARITH_OVERFLOW is fault. -/
theorem divStepFollowsItsRule : Obligations.DivStepFollowsItsRule := by
  unfold Obligations.DivStepFollowsItsRule
  refine ⟨rfl, fun p s b0 hrun hb0 hop => ⟨stepAt_of_truncated hrun hb0 hop, fun rs1 rs2 rd hbytes => ?whole⟩⟩
  have hstep : stepAt p s = execDivAt p.overflow rs1 rs2 rd s := stepAt_of_operands hrun hop hbytes rfl rfl
  rw [hstep]
  refine ⟨fun v hbad => execDivAt_of_badIndex _ s hbad, fun h1 h2 h a b q ha hb hq => ?valid⟩
  rw [← x_eq_getElem s _ h1] at ha
  rw [← x_eq_getElem s _ h2] at hb
  subst ha hb hq
  refine ⟨execDivAt_of_zero h1 h2 h, fun h0 hkept => ?result, fun h0 hover hm => ?overflow⟩
  case result =>
    rw [execDivAt_of_narrow h1 h2 h h0 hkept, setPc_next]
    rfl
  case overflow =>
    rw [hm]
    exact execDivAt_of_overflow h1 h2 h h0 hover

/-! ### The comparisons -/

theorem compare2_completes (rel : Word → Word → Bool) {r1 r2 : Byte} (s : State) (h1 : r1.toNat < 32)
    (h2 : r2.toNat < 32) :
    compare2 rel r1 r2 s =
      .next { s with eqFlag := rel s.regs[r1.toNat] s.regs[r2.toNat], pc := s.pc + 4#32 } := by
  rw [compare2_of_valid rel s h1 h2, setPc_next, x_eq_getElem, x_eq_getElem]
  rfl

/-- Settles O32: the six are `compare2`, each on its relation. -/
theorem comparisonsComplete : Obligations.ComparisonsComplete := by
  unfold Obligations.ComparisonsComplete
  rintro s r1 r2 pad h1 h2 a b rfl rfl
  exact ⟨compare2_completes relEq s h1 h2, compare2_completes relNeq s h1 h2, compare2_completes relGte s h1 h2,
    compare2_completes relLte s h1 h2, compare2_completes relLt s h1 h2, compare2_completes relGt s h1 h2⟩

/-- Settles O42: the flags of O32, compared as relations between integers. -/
theorem comparisonsAreComplementary : Obligations.ComparisonsAreComplementary := by
  unfold Obligations.ComparisonsAreComplementary
  intro s r1 r2 pad h1 h2
  obtain ⟨heq, hneq, hgte, hlte, hlt, hgt⟩ := comparisonsComplete s r1 r2 pad h1 h2 _ _ rfl rfl
  refine ⟨_, _, _, _, _, _, heq, hneq, hgte, hlte, hlt, hgt, ?_, ?_, ?_, ?_⟩
  · exact decide_not
  · simp [← decide_not]
  · simp [← decide_not]
  · rw [decide_eq_true_iff, BitVec.toInt_inj]

/-! ### The jumps -/

/-- A distance forward from `next`, in 32-bit arithmetic. -/
theorem setPc_next_add (s : State) (n : Nat) (d : Word) :
    s.setPc (s.next n + d.toNat) = { s with pc := s.pc + BitVec.ofNat 32 n + d } := by
  simp [State.setPc, State.next, BitVec.ofNat_add]

/-- Settles O30. -/
theorem jumpsComplete : Obligations.JumpsComplete := by
  unfold Obligations.JumpsComplete
  intro s rt h
  rw [← x_eq_getElem s _ h]
  refine ⟨fun hle => ?jmp, fun hle => ?jmpf, fun hle => ?jmpb⟩
  case jmp => exact (execJmp_of_le h hle).trans (by rw [setPc_toNat])
  case jmpf => exact (execJmpf_of_le h hle).trans (by rw [setPc_next_add])
  case jmpb => exact (execJmpb_of_le h hle).trans (by rw [setPc_next_sub s 2 hle])

/-- Settles O31. -/
theorem jmpeCompletes : Obligations.JmpeCompletes := by
  unfold Obligations.JmpeCompletes
  intro s rt h
  rw [← x_eq_getElem s _ h]
  exact ⟨fun heq hle => (execJmpe_of_taken h heq hle).trans (by rw [setPc_toNat]),
    fun heq => (execJmpe_of_notTaken h heq).trans (by rw [setPc_next])⟩

/-- Settles O22: the truncated Jmpf, then the whole one with a bad index byte, with a sum past 32 bits, past LEN, and up
to LEN. -/
theorem jmpfStepFollowsItsRule : Obligations.JmpfStepFollowsItsRule := by
  unfold Obligations.JmpfStepFollowsItsRule
  refine ⟨rfl, fun p s b0 hrun hb0 hop => ⟨stepAt_of_truncated hrun hb0 hop, fun rt hbytes => ?whole⟩⟩
  rw [stepAt_jmpf hrun hop hbytes]
  refine ⟨execJmpf_of_invalid s, fun h t htarget => ?valid⟩
  rw [← x_eq_getElem s _ h] at htarget ⊢
  subst htarget
  exact ⟨execJmpf_of_overflow h, fun hfits hgt => execJmpf_of_gt h hgt hfits,
    fun hle => (execJmpf_of_le h hle).trans (by rw [setPc_next_add])⟩

/-- Settles O25: the truncated Jmpe, then the whole one with a bad index byte, taken past LEN, taken up to LEN, and not
taken. -/
theorem jmpeStepFollowsItsRule : Obligations.JmpeStepFollowsItsRule := by
  unfold Obligations.JmpeStepFollowsItsRule
  refine ⟨rfl, fun p s b0 hrun hb0 hop => ⟨stepAt_of_truncated hrun hb0 hop, fun rt hbytes => ?whole⟩⟩
  rw [stepAt_jmpe hrun hop hbytes]
  refine ⟨execJmpe_of_invalid s, fun h => ?valid⟩
  rw [← x_eq_getElem s _ h]
  exact ⟨execJmpe_of_gt h, fun heq hle => (execJmpe_of_taken h heq hle).trans (by rw [setPc_toNat]),
    fun heq => (execJmpe_of_notTaken h heq).trans (by rw [setPc_next])⟩

/-! ### Halt and Illegal -/

theorem execHalt_eq (s : State) : execHalt s =
    .next { s with pc := s.pc + 1#32, run := .halted .haltOp, notices := s.notices ++ [.haltNotice] } := by
  rw [execHalt, setPc_next]; rfl

theorem execIllegal_eq (code : Byte) (s : State) : execIllegal code s =
    .next { s with pc := s.pc + 1#32, run := .halted .illegalOp, notices := s.notices ++ [.illegalNotice] } := by
  rw [execIllegal, setPc_next]; rfl

/-- Settles O33. -/
theorem haltAndIllegalComplete : Obligations.HaltAndIllegalComplete := by
  unfold Obligations.HaltAndIllegalComplete
  exact fun s code => ⟨execHalt_eq s, execIllegal_eq code s⟩

theorem bytesAt_singleton {s : State} {a : Nat} {b : Byte} (h : s.buf.byteAt a = some b) : s.bytesAt a [b] := by
  rintro (_ | k) hk
  · exact h
  · simp at hk

section
variable {p : Params} {s t : State} {b0 : Byte} (hrun : s.run = .running) (hb0 : s.buf.byteAt s.pc.toNat = some b0)
include hrun hb0

theorem stepAt_halt (hop : opMap p.opTable b0 = .halt)
    (ht : t = { s with pc := s.pc + 1#32, run := .halted .haltOp, notices := s.notices ++ [.haltNotice] }) :
    stepAt p s = .next t ∧ stepResultAt p s = .next (t, .halted .haltOp) := by
  have hexec : stepAt p s = execHalt s := stepAt_of_operands hrun hop (bytesAt_singleton hb0) rfl rfl
  subst ht
  have hstep := hexec.trans (execHalt_eq s)
  exact ⟨hstep, stepResultAt_of_next hstep⟩

theorem stepAt_illegal (hop : opMap p.opTable b0 = .illegal)
    (ht : t = { s with pc := s.pc + 1#32, run := .halted .illegalOp, notices := s.notices ++ [.illegalNotice] }) :
    stepAt p s = .next t ∧ stepResultAt p s = .next (t, .halted .illegalOp) := by
  have hexec : stepAt p s = execIllegal b0 s := stepAt_of_operands hrun hop (bytesAt_singleton hb0) rfl rfl
  subst ht
  have hstep := hexec.trans (execIllegal_eq b0 s)
  exact ⟨hstep, stepResultAt_of_next hstep⟩

end

/-- Settles O26: the step of each byte under every parameter, then at the defaults. -/
theorem haltAndIllegalStepsFollowTheirRules : Obligations.HaltAndIllegalStepsFollowTheirRules := by
  unfold Obligations.HaltAndIllegalStepsFollowTheirRules
  refine ⟨rfl, fun s b0 hrun hb0 => ?defaults,
    fun p s t b0 hrun hb0 => ⟨stepAt_halt hrun hb0, stepAt_illegal hrun hb0⟩⟩
  rw [step_eq_stepAt, stepResult_eq_stepResultAt]
  exact ⟨fun hop => ⟨_, stepAt_halt hrun hb0 hop rfl⟩, fun hop => ⟨_, stepAt_illegal hrun hb0 hop rfl⟩⟩

end Sys2Proof.Machine
end

section
/-! PROOFS. The instruction buffer as the host writes it: what a load and a placed instruction read back, and the one
canonical form of what it reads (spec/10_state.md R20, spec/50_engine.md R103). -/

namespace Sys2Proof.Machine

/-! ### Bytes set at consecutive offsets -/

/-- A byte below the offsets that are set stays. -/
theorem byteAt_setBytes_of_lt {m : Memory} {a c : Nat} {b : Byte} (bs : List Byte) (hm : m.wf) (hc : c < a)
    (hb : m.byteAt c = some b) : (m.setBytes a bs).byteAt c = some b := by
  induction bs generalizing m a with
  | nil => exact hb
  | cons d bs ih =>
    have hlt : c < m.len.toNat := (byteAt_isSome_iff m c).1 (by rw [hb]; rfl)
    have hd : (m.setByte a d).byteAt c = some b := (byteAt_setByte_ne m a c d hm (Nat.ne_of_lt hc) hlt).trans hb
    exact ih (setByte_wf m a d hm) (Nat.lt_succ_of_lt hc) hd

theorem byteAt_setBytes {m : Memory} {a : Nat} {bs : List Byte} (hm : m.wf) (ha : a + bs.length < 2 ^ 32)
    (k : Nat) (hk : k < bs.length) : (m.setBytes a bs).byteAt (a + k) = some bs[k] := by
  induction bs generalizing m a k with
  | nil => simp at hk
  | cons b bs ih =>
    simp only [List.length_cons] at ha hk
    have hwf : (m.setByte a b).wf := setByte_wf m a b hm
    cases k with
    | zero => exact byteAt_setBytes_of_lt bs hwf (Nat.lt_succ_self a) (byteAt_setByte_self m a b hm (by omega))
    | succ k =>
      have hrest := ih hwf (a := a + 1) (by omega) k (by omega)
      simpa [Memory.setBytes, Nat.add_assoc, Nat.add_comm 1 k] using hrest

/-! ### An instruction placed to run next -/

theorem bytesAt_of_append {s : State} {a : Nat} {bs cs : List Byte} (h : s.bytesAt a (bs ++ cs)) : s.bytesAt a bs :=
  fun k hk => by
    have hbyte := h k (by rw [List.length_append]; omega)
    rwa [List.getElem_append_left hk] at hbyte

/-- The placed bytes stand where the next step fetches, and the engine is Running. -/
theorem placeInstr_fetches {s : State} {bs : List Byte} (hm : s.buf.wf) (hlen : bs.length < 2 ^ 32) :
    (placeInstr s bs).run = .running ∧ (placeInstr s bs).bytesAt (placeInstr s bs).pc.toNat bs := by
  unfold placeInstr
  split
  · next hfits => exact ⟨rfl, byteAt_setBytes hm hfits⟩
  · exact ⟨rfl, byteAt_setBytes hm (by simpa using hlen)⟩

theorem placeInstr_frame (s : State) (bs : List Byte) :
    (placeInstr s bs).regs = s.regs ∧ (placeInstr s bs).eqFlag = s.eqFlag ∧ (placeInstr s bs).rem = s.rem ∧
    (placeInstr s bs).notices = s.notices ∧ (s.pc.toNat + bs.length < 2 ^ 32 → (placeInstr s bs).pc = s.pc) := by
  unfold placeInstr
  split
  · exact ⟨rfl, rfl, rfl, rfl, fun _ => rfl⟩
  · next hfar => exact ⟨rfl, rfl, rfl, rfl, fun hnear => absurd hnear hfar⟩

/-- The instruction that a table word spells is spelled by the first of its four bytes. -/
theorem encode_append_of_decodeTableWord {nbits w : Nat} {i : Instr} (h : decodeTableWord nbits w = some i) :
    i.wellFormed = true ∧ ∃ rest, encode i ++ rest = tableBytes nbits w := by
  unfold decodeTableWord at h
  split at h
  · next j rest hdecode =>
    cases h
    obtain ⟨hbytes, hwf⟩ := encodeAt_of_decodeAt opTable_valid hdecode
    exact ⟨hwf, rest, hbytes⟩
  · cases h

/-- Settles O7: the bytes placed at `pc` begin with the instruction's own, which decode to it. -/
theorem placedTableWordRuns : Obligations.PlacedTableWordRuns := by
  unfold Obligations.PlacedTableWordRuns
  intro s nbits w i hm hword
  refine ⟨?_, placeInstr_frame s (tableBytes nbits w)⟩
  obtain ⟨hwf, rest, hbytes⟩ := encode_append_of_decodeTableWord hword
  obtain ⟨hrun, hplaced⟩ := placeInstr_fetches (bs := tableBytes nbits w) hm (by simp [tableBytes])
  rw [← hbytes] at hplaced
  rw [State.withFetchWord, ← hbytes]
  exact stepWith_of_decodeAt opTable_valid (hbytes ▸ hrun) (bytesAt_of_append hplaced)
    (decodeAt_encodeAt_self opTable_valid hwf)

/-! ### A loaded program -/

/-- What the listed cells of a byte sequence give at an offset: its byte, where it has one. -/
theorem lookup_cellsFrom (a k : Nat) (bs : List Byte) :
    ((cellsFrom a bs).lookup (a + k)).getD Memory.unlisted = bs[k]?.getD Memory.unlisted := by
  induction bs generalizing a k with
  | nil => rfl
  | cons b bs ih =>
    have hrest : ∀ k, ((cellsFrom (a + 1) bs).lookup (a + (k + 1))).getD Memory.unlisted =
        bs[k]?.getD Memory.unlisted := fun k => by rw [← ih (a + 1) k, Nat.add_assoc, Nat.add_comm 1 k]
    by_cases hb : b = Memory.unlisted
    · rw [cellsFrom, if_pos hb]
      cases k with
      | zero =>
        rw [lookup_none_of_lt _ _ fun c hc => (mem_cellsFrom hc).2.1]
        simp [hb]
      | succ k => simpa using hrest k
    · rw [cellsFrom, if_neg hb]
      cases k with
      | zero => simp
      | succ k =>
        have hne : (a + (k + 1) == a) = false := by simp
        simpa [List.lookup_cons, hne] using hrest k

theorem byteAt_ofBytes {bytes : List Byte} (h : bytes.length < 2 ^ 32) (a : Nat) :
    (Memory.ofBytes bytes).byteAt a = bytes[a]? := by
  have hlen : (Memory.ofBytes bytes).len.toNat = bytes.length := by
    rw [Memory.ofBytes, BitVec.toNat_ofNat, Nat.mod_eq_of_lt h]
  have hlookup := lookup_cellsFrom 0 a bytes
  rw [Nat.zero_add] at hlookup
  rw [Memory.byteAt, hlen]
  split
  · next hlt =>
    rw [List.getElem?_eq_getElem hlt] at hlookup ⊢
    exact congrArg some hlookup
  · next hge => rw [List.getElem?_eq_none (Nat.not_lt.1 hge)]

/-- Settles O50. -/
theorem loadProgramReplacesTheBuffer : Obligations.LoadProgramReplacesTheBuffer := by
  unfold Obligations.LoadProgramReplacesTheBuffer
  intro bytes s
  refine ⟨fun hlt => ⟨_, if_pos hlt, ?_, byteAt_ofBytes hlt, rfl, rfl, rfl, rfl, rfl, rfl⟩,
    fun hge => if_neg (Nat.not_lt.2 hge)⟩
  exact (BitVec.toNat_ofNat _ _).trans (Nat.mod_eq_of_lt hlt)

/-! ### The canonical form is determined by what it reads -/

theorem cells_rising {m : Memory} (hm : m.wf) : m.cells.Pairwise fun c d => c.1 < d.1 := List.pairwise_map.1 hm.1

theorem cells_nodup {m : Memory} (hm : m.wf) : m.cells.Nodup :=
  (cells_rising hm).imp fun hlt heq => Nat.ne_of_lt hlt (congrArg Prod.fst heq)

/-- The cells of a canonical buffer are its bytes that are listed. -/
theorem mem_cells_iff {m : Memory} (hm : m.wf) (c : Host.Cell) :
    c ∈ m.cells ↔ m.byteAt c.1 = some c.2 ∧ c.2 ≠ Memory.unlisted := by
  constructor
  · intro hc
    obtain ⟨hne, hlt⟩ := hm.2 c hc
    obtain ⟨before, after, hsplit⟩ := List.append_of_mem hc
    have hlookup : m.cells.lookup c.1 = some c.2 := by
      refine List.lookup_eq_some_iff.2 ⟨before, after, hsplit, fun d hd => ?_⟩
      have hrising := cells_rising hm
      rw [hsplit, List.pairwise_append] at hrising
      obtain ⟨-, -, hacross⟩ := hrising
      have hdc : d.1 < c.1 := hacross d hd c List.mem_cons_self
      exact bne_iff_ne.2 (Nat.ne_of_gt hdc)
    exact ⟨by rw [Memory.byteAt, if_pos hlt, hlookup]; rfl, hne⟩
  · rintro ⟨hbyte, hne⟩
    rw [Memory.byteAt] at hbyte
    split at hbyte
    · cases hlookup : m.cells.lookup c.1 with
      | none => simp [hlookup, hne.symm] at hbyte
      | some b =>
        obtain ⟨before, after, hsplit, -⟩ := List.lookup_eq_some_iff.1 hlookup
        have hb : b = c.2 := by simpa [hlookup] using hbyte
        rw [hsplit, hb]
        simp
    · cases hbyte

/-- Settles O51: rising lists with the same members are equal. -/
theorem equalReadingBuffersAreEqual : Obligations.EqualReadingBuffersAreEqual := by
  unfold Obligations.EqualReadingBuffersAreEqual
  intro m1 m2 hm1 hm2 hlen hread
  have hmem : ∀ c, c ∈ m1.cells ↔ c ∈ m2.cells := fun c => by
    rw [mem_cells_iff hm1, mem_cells_iff hm2, hread]
  have hperm : m1.cells.Perm m2.cells := (List.perm_ext_iff_of_nodup (cells_nodup hm1) (cells_nodup hm2)).2 hmem
  have hcells : m1.cells = m2.cells :=
    hperm.eq_of_pairwise (fun _ _ _ _ hlt hgt => absurd hgt (Nat.lt_asymm hlt)) (cells_rising hm1)
      (cells_rising hm2)
  cases m1
  cases m2
  cases hlen
  cases hcells
  rfl

end Sys2Proof.Machine
end

section
/-! PROOFS. The host's surface: the values of reset, runs, the commands of an idle engine and of a run, and the reads
(spec/50_engine.md R97 to R103, spec/70_reset_and_hazards.md R126). -/

namespace Sys2Proof.Machine

/-! ### Reset -/

/-- Settles O49: the fields of `State.resetWith`, and the end of an empty buffer. -/
theorem resetValues : Obligations.ResetValues := by
  unfold Obligations.ResetValues
  exact ⟨fun n h => Vector.getElem_replicate h, rfl, rfl, rfl, rfl, rfl, rfl, fun _ => rfl,
    fun _ => ⟨rfl, fun _ => rfl⟩, stepWith_of_endOfBuffer rfl le_rfl⟩

/-! ### Runs -/

section
variable {f : State → Outcome}

/-- What a run with fuel for one more step answers: that of the run that goes on, or that of the step. -/
theorem runIn_succ_eq_next_iff (k : Nat) (s t : State) (r : StepResult) :
    runIn f (k + 1) s = .next (t, r) ↔
      (∃ u, resultIn f s = .next (u, .continue) ∧ runIn f k u = .next (t, r)) ∨
      (r ≠ .continue ∧ resultIn f s = .next (t, r)) := by
  cases hstep : resultIn f s with
  | next uq =>
    obtain ⟨u, q⟩ := uq
    by_cases hq : q = .continue
    · subst hq
      rw [runIn_succ_continue k hstep]
      constructor
      · exact fun hrun => .inl ⟨u, rfl, hrun⟩
      · rintro (⟨v, hv, hrun⟩ | ⟨hr, hstop⟩)
        · cases hv
          exact hrun
        · cases hstop
          exact absurd rfl hr
    · rw [runIn_succ_stop k hstep hq]
      constructor
      · intro hstop
        cases hstop
        exact .inr ⟨hq, rfl⟩
      · rintro (⟨v, hv, -⟩ | ⟨-, hstop⟩)
        · cases hv
          exact absurd rfl hq
        · exact hstop
  | fault | refused => simp [runIn, hstep]

/-- A run whose result is Continue has used up its fuel on steps that return Continue. -/
theorem runIn_continue_iff (k : Nat) (s t : State) :
    runIn f k s = .next (t, .continue) ↔ ContinuesIn f k s t := by
  induction k generalizing s with
  | zero => simp [runIn, ContinuesIn]
  | succ k ih => simp [runIn_succ_eq_next_iff, ContinuesIn, ih]

/-- A run with another result ends at the first step that returns it. -/
theorem runIn_stop_iff (k : Nat) (s t : State) {r : StepResult} (hr : r ≠ .continue) :
    runIn f k s = .next (t, r) ↔ ∃ j u, j < k ∧ ContinuesIn f j s u ∧ resultIn f u = .next (t, r) := by
  induction k generalizing s with
  | zero => simp [runIn, hr.symm]
  | succ k ih =>
    rw [runIn_succ_eq_next_iff]
    constructor
    · rintro (⟨u, hu, hrun⟩ | ⟨-, hstep⟩)
      · obtain ⟨j, v, hj, hcont, hv⟩ := (ih u).1 hrun
        exact ⟨j + 1, v, by omega, ⟨u, hu, hcont⟩, hv⟩
      · exact ⟨0, s, by omega, rfl, hstep⟩
    · rintro ⟨_ | j, v, hj, hcont, hv⟩
      · cases hcont
        exact .inr ⟨hr, hv⟩
      · obtain ⟨u, hu, hcont⟩ := hcont
        exact .inl ⟨u, hu, (ih u).2 ⟨j, v, by omega, hcont, hv⟩⟩

end

/-- Settles O52. -/
theorem runStopsAtTheFirstResult : Obligations.RunStopsAtTheFirstResult := by
  unfold Obligations.RunStopsAtTheFirstResult
  refine ⟨fun p k s t r hr => runIn_stop_iff k s t hr, fun p k s t => runIn_continue_iff k s t,
    fun p k s c hrun => runForAt_of_halted hrun k,
    fun k s t => ⟨stepResult_eq_stepResultAt s, runFor_eq_runForAt k s, ?_⟩⟩
  rw [Continues, step_eq_stepAt_fun]

/-! ### Commands -/

theorem command_eq_commandAt (z : Session) (c : Command) : z.command c = z.commandAt defaultParams c := by
  rw [Session.command, step_eq_stepAt_fun]; rfl

theorem tick_eq_tickAt (z : Session) : z.tick = z.tickAt defaultParams := by
  rw [Session.tick, step_eq_stepAt_fun]; rfl

section
variable (p : Params) (s : State)

theorem commandAt_of_run_in_progress {c : Command} (hc : c ≠ .reset) :
    Session.commandAt p ⟨s, true⟩ c = .next (⟨s, true⟩, .notAccepted) := by
  cases c with
  | reset => exact absurd rfl hc
  | _ => rfl

theorem commandAt_loadProgram_done_iff (bytes : List Byte) (t : State) :
    Session.commandAt p ⟨s, false⟩ (.loadProgram bytes) = .next (⟨t, false⟩, .done) ↔ loadProgram bytes s = some t := by
  cases hload : loadProgram bytes s <;> simp [Session.commandAt, Session.commandIn, hload]

theorem commandAt_loadProgram_turnedAway {bytes : List Byte} (h : loadProgram bytes s = none) :
    Session.commandAt p ⟨s, false⟩ (.loadProgram bytes) = .next (⟨s, false⟩, .notAccepted) := by
  simp [Session.commandAt, Session.commandIn, h]

theorem commandAt_run_of_running (hrun : s.run = .running) :
    Session.commandAt p ⟨s, false⟩ .run = .next (⟨s, true⟩, .running) := by
  simp [Session.commandAt, Session.commandIn, hrun]

theorem commandAt_run_of_halted {c : HaltCause} (hrun : s.run = .halted c) :
    Session.commandAt p ⟨s, false⟩ .run = .next (⟨s, false⟩, .result (resultOf (.halted c))) := by
  simp [Session.commandAt, Session.commandIn, hrun]

variable {p s} {t : State} {r : StepResult} (h : stepResultAt p s = .next (t, r))
include h

theorem commandAt_step : Session.commandAt p ⟨s, false⟩ .step = .next (⟨t, false⟩, .result r) := by
  rw [stepResultAt] at h
  simp [Session.commandAt, Session.commandIn, h]

theorem tickAt_continue (hr : r = .continue) : Session.tickAt p ⟨s, true⟩ = .next (⟨t, true⟩, .running) := by
  rw [stepResultAt] at h
  subst hr
  simp [Session.tickAt, Session.tickIn, h]

theorem tickAt_stop (hr : r ≠ .continue) : Session.tickAt p ⟨s, true⟩ = .next (⟨t, false⟩, .result r) := by
  rw [stepResultAt] at h
  simp [Session.tickAt, Session.tickIn, h]

end

/-- Settles O53: one equation for each command, idle and in a run, and for the tick. -/
theorem onlyResetIsAcceptedDuringARun : Obligations.OnlyResetIsAcceptedDuringARun := by
  unfold Obligations.OnlyResetIsAcceptedDuringARun
  refine ⟨fun p s => ⟨rfl, fun _ => commandAt_of_run_in_progress p s, rfl, commandAt_loadProgram_done_iff p s,
    fun _ => commandAt_loadProgram_turnedAway p s, commandAt_run_of_running p s, fun _ => commandAt_run_of_halted p s,
    ?step⟩, fun z c => ⟨command_eq_commandAt z c, tick_eq_tickAt z, rfl⟩⟩
  obtain ⟨t, -, hresult⟩ := stepAt_stepResultAt_total p s
  exact ⟨t, _, hresult, commandAt_step hresult, tickAt_continue hresult, tickAt_stop hresult⟩

/-! ### A run in progress -/

/-- The invariant of O54: a run is in progress only while the engine is Running. -/
def Session.runsOnlyRunning (z : Session) : Prop := z.runActive = true → z.engine.run = .running

theorem runsOnlyRunning_idle (s : State) : Session.runsOnlyRunning ⟨s, false⟩ := fun h => by cases h

theorem commandAt_keeps_runsOnlyRunning {p : Params} {z z' : Session} {c : Command} {a : Reply}
    (hz : z.runsOnlyRunning) (h : z.commandAt p c = .next (z', a)) : z'.runsOnlyRunning := by
  rcases commandIn_cases h with ⟨-, rfl, -⟩ | ⟨-, -, rfl, -⟩ |
    ⟨-, ⟨bytes, t, -, -, rfl, -⟩ | ⟨bytes, -, -, rfl, -⟩ | ⟨t, r, -, -, rfl, -⟩ | ⟨-, hrun, rfl, -⟩ |
      ⟨w, -, -, rfl, -⟩ | ⟨-, rfl, -⟩⟩
  · exact runsOnlyRunning_idle _
  · exact hz
  · exact runsOnlyRunning_idle t
  · exact hz
  · exact runsOnlyRunning_idle t
  · exact fun _ => hrun
  · exact hz
  · exact hz

/-- After a tick, the run goes on exactly while the engine is Running; a halted engine's cause is the run's result. -/
theorem tickAt_cases {p : Params} {z z' : Session} {a : Reply} (h : z.tickAt p = .next (z', a)) :
    (z.runActive = false ∧ z' = z) ∨
    (z.runActive = true ∧ ((z'.engine.run = .running ∧ z'.runActive = true) ∨
      (z'.runActive = false ∧ a = .result (resultOf z'.engine.run)))) := by
  rcases tickIn_cases h with ⟨hidle, rfl, -⟩ | ⟨hactive, t, r, hstep, ⟨rfl, rfl, -⟩ | ⟨-, rfl, rfl⟩⟩
  · exact .inl ⟨hidle, rfl⟩
  · exact .inr ⟨hactive, .inl ⟨(resultOf_eq_continue _).1 (resultIn_cases hstep).2.symm, rfl⟩⟩
  · exact .inr ⟨hactive, .inr ⟨rfl, congrArg Reply.result (resultIn_cases hstep).2⟩⟩

/-- Settles O54: the invariant kept by commands, then by ticks, and the end of a halting run. -/
theorem runInProgressOnlyWhileRunning : Obligations.RunInProgressOnlyWhileRunning := by
  unfold Obligations.RunInProgressOnlyWhileRunning
  intro p z z' a hz h
  simp only [command_eq_commandAt, tick_eq_tickAt] at h ⊢
  constructor
  case left =>
    rcases h with ⟨c, hc | hc⟩ | ht
    · exact commandAt_keeps_runsOnlyRunning hz hc
    · exact commandAt_keeps_runsOnlyRunning hz hc
    · obtain ⟨q, hq⟩ : ∃ q, z.tickAt q = .next (z', a) := ht.elim (⟨_, ·⟩) (⟨_, ·⟩)
      rcases tickAt_cases hq with ⟨-, rfl⟩ | ⟨-, ⟨hrun, -⟩ | ⟨hover, -⟩⟩
      · exact hz
      · exact fun _ => hrun
      · exact fun hactive => by simp [hover] at hactive
  case right =>
    intro k hactive ht hhalted
    obtain ⟨q, hq⟩ : ∃ q, z.tickAt q = .next (z', a) := ht.elim (⟨_, ·⟩) (⟨_, ·⟩)
    rcases tickAt_cases hq with ⟨hidle, -⟩ | ⟨-, ⟨hrun, -⟩ | ⟨hover, ha⟩⟩
    · simp [hidle] at hactive
    · simp [hhalted] at hrun
    · exact ⟨hover, hhalted ▸ ha⟩

/-! ### Reads -/

theorem view_eq_iff (s u : State) : u.view = s.view ↔ u = { s with notices := u.notices } := by
  constructor
  · intro h
    obtain ⟨regs, pc, eqFlag, rem, run, buf, notices⟩ := u
    cases h
    rfl
  · intro h
    rw [h]
    rfl

/-- Settles O55. -/
theorem hostReadsAllStateAndChangesNothing : Obligations.HostReadsAllStateAndChangesNothing := by
  unfold Obligations.HostReadsAllStateAndChangesNothing
  exact fun s => ⟨rfl, fun _ => rfl, view_regs s, view_pc s, view_eqFlag s, view_rem s, view_run s,
    congrArg Memory.len (view_buf s), fun a => by rw [view_buf], view_eq_iff s⟩

end Sys2Proof.Machine
end
